-- ==== Sys2Proof/Word.lean ====
section
/-! DEFINITION. The word types of the frame codec engine (00_scope.md rules R5 and R7). -/

namespace Sys2Proof

/-- A byte, `DATA_W` = 8 (R5, R7). -/
abbrev Byte := BitVec 8

/-- A 9-bit length, 0..511 (R7, R27). -/
abbrev Len := BitVec 9

/-- A window offset, `ADDR_W` = 12 (R5, R60). -/
abbrev Offset := BitVec 12

end Sys2Proof
end

