-- ==== Sys2Proof/Config.lean ====
section
/-! DEFINITION. What an implementation fixes (00_scope.md rule R5) and the free values the spec leaves open
(93_implementation_defined.md U1 and U2). -/

namespace Sys2Proof

/-- The synthesis-time parameters of R5 and the window base of R60. -/
structure Config where
  /-- `START_BYTE` (R5). -/
  start : Byte
  /-- `ACK_BYTE` (R5, OPEN). -/
  ack : Byte
  /-- `NACK_BYTE` (R5). -/
  nack : Byte
  /-- `FCE_BASE`, where the window sits in the host's address map (R60, R67, OPEN). -/
  base : Nat
deriving DecidableEq, Repr

/-- The defaults of R5: 0x01, 0x06 (PRESUMED: the spec marks it as general knowledge, log 2) and 0x15;
base 0 (DESIGN CHOICE, log 3). -/
def Config.default : Config := { start := 0x01, ack := 0x06, nack := 0x15, base := 0 }

/-- `CK_SEED` (R5). -/
abbrev ckSeed : Byte := 0xFF
/-- `TYPE_REQUEST` (R5). -/
abbrev typeRequest : Byte := 0x00
/-- `TYPE_RESPONSE` (R5). -/
abbrev typeResponse : Byte := 0x01
/-- `MIN_FRAME` (R5). -/
abbrev minFrame : Nat := 5
/-- `BUF_SIZE`, equal to `MAX_FRAME` (R5). -/
abbrev bufSize : Nat := 256
/-- `MAX_PAYLOAD` (R5). -/
abbrev maxPayload : Nat := 251
/-- The size of the host window, 2 to the power `ADDR_W` (R60). -/
abbrev windowSize : Nat := 4096

/-- FREE VALUE (R44, U1): the byte a buffer location holds after a reset, one draw per reset (the first argument counts
resets) and per window offset (the second), under no law. -/
opaque Config.resetByte : Nat → Nat → BitVec 8

/-- FREE VALUE (R206, U2): whether a raced read returns the value the completion will write (true) or the value held at
acceptance (false), one draw per read (the argument counts raced reads). -/
opaque Config.raceNew : Nat → Bool

end Sys2Proof
end

