-- ==== Sys2Proof/Syntax.lean ====
section
/-! DEFINITION. The commands of FCE-1, one constructor per row of opcode_table.json (30_encoding.md rule R84), and the
fields of the one command format `CMD8` (rule R80). -/

namespace Sys2Proof

/-- The seven commands. None has an operand field (R81, R82). -/
inductive Instr where
  /-- `CALC`, R102. -/
  | calcSum
  /-- `CHECK`, R103. -/
  | check
  /-- `DECODE`, R120. -/
  | decode
  /-- `ENCODE`, R150. -/
  | encode
  /-- `CTRL_ACK`, R160. -/
  | ctrlAck
  /-- `CTRL_NACK`, R161. -/
  | ctrlNack
  /-- `RECV`, R135. -/
  | recv
deriving DecidableEq, Repr

/-- The fields of a command byte, whatever their values (R80). -/
structure Cmd8 where
  /-- Operation class, bits 7:4. -/
  opc : BitVec 4
  /-- Bits 3:1, must be 000. -/
  z : BitVec 3
  /-- Control-frame kind, bit 0. -/
  k : BitVec 1
deriving DecidableEq, Repr

end Sys2Proof
end

