-- ==== Sys2Proof/WellFormed.lean ====
section
/-! DEFINITION. The checks on raw terms: a command byte's fields (30_encoding.md rules R80 and R84) and a configuration
(00_scope.md rule R6). An `Instr` itself has no fields, so every one is well-formed; what can be ill-formed is the `Cmd8`
it is read from and the configuration it runs under. -/

namespace Sys2Proof

/-- `OPC` is one of the assigned classes 1..6 (R84). -/
def Cmd8.opcAssigned (c : Cmd8) : Bool := decide (1 ≤ c.opc.toNat ∧ c.opc.toNat ≤ 6)

/-- `Z` is 000 (R80). -/
def Cmd8.zClear (c : Cmd8) : Bool := decide (c.z = 0)

/-- `K` is 0 unless `OPC = 5` (R80). -/
def Cmd8.kAllowed (c : Cmd8) : Bool := decide (c.k = 0 ∨ c.opc = 5)

/-- A legal command byte's fields: the three checks together. -/
def Cmd8.wf (c : Cmd8) : Bool := c.opcAssigned && c.zClear && c.kAllowed

/-- R6: the configurable bytes are pairwise distinct. -/
def Config.wf (c : Config) : Bool :=
  decide (c.start ≠ c.ack) && decide (c.start ≠ c.nack) && decide (c.ack ≠ c.nack)

end Sys2Proof
end

