-- ==== Sys2Proof/Decode.lean ====
section
/-! DEFINITION. From bytes to commands and back (30_encoding.md rules R80, R84, R85). -/

namespace Sys2Proof

/-- The fields of a byte, by the bit positions of R80. -/
def Cmd8.ofByte (b : Byte) : Cmd8 :=
  { opc := b.extractLsb' 4 4, z := b.extractLsb' 1 3, k := b.extractLsb' 0 1 }

/-- The byte with these fields (R80). -/
def Cmd8.toByte (c : Cmd8) : Byte := c.opc ++ c.z ++ c.k

/-- Why bytes are no command. The byte itself is still a command to the engine, which completes with `ILLEGAL_CMD` (R85);
the names are the model's (log 19). -/
inductive Reject where
  /-- no byte left to read -/
  | truncated
  /-- `Z` is not 000 -/
  | nonzeroZ
  /-- `OPC` is 0 or 7..15 -/
  | unassignedOpc
  /-- `K = 1` with an `OPC` other than 5 -/
  | strayK
deriving DecidableEq, Repr

/-- The opcode map of R84 on the fields `OPC` and `K`. -/
def opcodeMap (opc : BitVec 4) (k : BitVec 1) : Except Reject Instr :=
  if opc = 1 ∧ k = 0 then .ok .calcSum
  else if opc = 2 ∧ k = 0 then .ok .check
  else if opc = 3 ∧ k = 0 then .ok .decode
  else if opc = 4 ∧ k = 0 then .ok .encode
  else if opc = 5 ∧ k = 0 then .ok .ctrlAck
  else if opc = 5 ∧ k = 1 then .ok .ctrlNack
  else if opc = 6 ∧ k = 0 then .ok .recv
  else if opc = 0 ∨ 7 ≤ opc.toNat then .error .unassignedOpc
  else .error .strayK

/-- The command a byte stands for, or why it is illegal (R84, R85). -/
def decodeByte (b : Byte) : Except Reject Instr :=
  let c := Cmd8.ofByte b
  if c.z = 0 then opcodeMap c.opc c.k else .error .nonzeroZ

/-- Decoding the head of a byte list: a command is one byte, with no extension bytes (R80). -/
def decode : List Byte → Except Reject (Instr × List Byte)
  | [] => .error .truncated
  | b :: rest => (decodeByte b).map (fun i => (i, rest))

/-- The fields of each command, column by column of R84's table. -/
def Instr.fields : Instr → Cmd8
  | .calcSum => { opc := 1, z := 0, k := 0 }
  | .check => { opc := 2, z := 0, k := 0 }
  | .decode => { opc := 3, z := 0, k := 0 }
  | .encode => { opc := 4, z := 0, k := 0 }
  | .ctrlAck => { opc := 5, z := 0, k := 0 }
  | .ctrlNack => { opc := 5, z := 0, k := 1 }
  | .recv => { opc := 6, z := 0, k := 0 }

/-- The command byte (R80, R84). -/
def encodeByte (i : Instr) : Byte := i.fields.toByte

/-- The words of an instruction: one byte. -/
def encode (i : Instr) : List Byte := [encodeByte i]

/-- The bytes of a table word, lowest first, as `n` bytes. -/
def wordBytes (w : Nat) : Nat → List Byte
  | 0 => []
  | n + 1 => BitVec.ofNat 8 w :: wordBytes (w / 256) n

/-- What the decoder reads from a table row's bits (bit 0 the least significant bit of the first byte). -/
def decodeTableWord (nbits w : Nat) : Option Instr :=
  match decode (wordBytes w ((nbits + 7) / 8)) with
  | .ok (i, _) => some i
  | .error _ => none

end Sys2Proof
end

