-- ==== Sys2Proof/Machine/State.lean ====
section
/-! DEFINITION. The state of the machine: everything 10_state.md rule R20 names, the configuration the step runs under, and
the model's own fields for what the spec leaves to the host and to chance. -/

namespace Sys2Proof.Machine

/-- `RX_KIND.KIND` (R35): four names for the four values of a 2-bit field. -/
inductive RxKind where
  /-- 0: no message -/
  | none
  /-- 1: an envelope was decoded -/
  | envelope
  /-- 2: a one-byte ACK-equivalent -/
  | ack
  /-- 3: a one-byte NACK-equivalent -/
  | nack
deriving DecidableEq, Repr

/-- A host access to one byte, at an address of the host's bus (R60). -/
inductive HostOp where
  /-- `MemRead(addr, 1)` -/
  | rd (addr : Nat)
  /-- `MemWrite(addr, 1, v)` -/
  | wr (addr : Nat) (v : Byte)
deriving DecidableEq, Repr

/-- One event of the platform (R20, R176): events are taken one at a time, in any order. -/
inductive Input where
  /-- the host makes an access -/
  | host (op : HostOp)
  /-- the engine takes its enabled step, if it has one (R95) -/
  | engine
  /-- reset (R200) -/
  | reset
deriving DecidableEq, Repr

/-- The buffer bytes written since reset, as (window offset, byte) pairs in rising order of offset. An offset of a buffer that
is not listed reads as the reset draw of R44. -/
abbrev Memory := List Host.Cell

/-- The state. -/
structure State where
  /-- The configuration: a parameter, not state of the engine (R45, log 1). Nothing changes it. -/
  cfg : Config
  /-- `RX` (R40), `TX` (R41) and `PAY` (R42), at window offsets 0x000..0x2FF. -/
  mem : Memory
  /-- `OP`, the hidden in-flight opcode latch (R37). -/
  op : Byte
  /-- `STATUS.BUSY` (R24). -/
  busy : Bool
  /-- `STATUS.DONE` (R24). -/
  done : Bool
  /-- `STATUS.RESULT` (R24). -/
  result : Bool
  /-- `STATUS.HZ` (R24). -/
  hz : Bool
  /-- `ERR.CODE` (R25). -/
  err : BitVec 4
  /-- `CTRL.IE` (R26). -/
  ie : Bool
  /-- `RX_LEN` (R27). -/
  rxLen : Len
  /-- `TX_LEN` (R28). -/
  txLen : Len
  /-- `MSG_TYPE.TYPE` (R29). -/
  msgType : BitVec 1
  /-- `MSG_FID.FID` (R30). -/
  msgFid : Byte
  /-- `MSG_PLEN.PLEN` (R31). -/
  msgPlen : Byte
  /-- `MSG_FLAGS.VALID` (R32). -/
  valid : Bool
  /-- `MSG_FLAGS.PPRES` (R32). -/
  ppres : Bool
  /-- `MSG_CS.CS` (R33). -/
  msgCs : Byte
  /-- `CHK` (R34). -/
  chk : Byte
  /-- `RX_KIND.KIND` (R35). -/
  rxKind : RxKind
  /-- The model's own: resets applied so far; selects the reset draws (R44, log 5). -/
  epoch : Nat
  /-- The model's own: raced reads answered so far; selects the next old-or-new draw (R206, log 6). -/
  draws : Nat
  /-- The model's own: the events still to come, oldest first (R176, log 7). -/
  inputs : List Input
  /-- The model's own: the bytes the host's reads returned, newest first (log 12). -/
  readLog : List Byte
deriving DecidableEq, Repr

/-- The reset values of R43 under the default configuration; no buffer byte written (R44); no event pending. `op` is a
don't care there: 0 is a DESIGN CHOICE (log 9). -/
def State.reset : State where
  cfg := Config.default
  mem := []
  op := 0
  busy := false
  done := false
  result := false
  hz := false
  err := 0
  ie := false
  rxLen := 0
  txLen := 0
  msgType := 0
  msgFid := 0
  msgPlen := 0
  valid := false
  ppres := false
  msgCs := 0
  chk := 0
  rxKind := .none
  epoch := 0
  draws := 0
  inputs := []
  readLog := []

/-- Why the model stops with a fault. No command raises one: the engine has no traps (R170). -/
inductive Fault where
  /-- Raised by a host access whose bus address lies outside the window at `FCE_BASE`: it is no access to this engine (R60).
  Safe: the model stops where another device would answer (log 3). -/
  | outsideWindow
  /-- Raised by a host read of `ERR` in a state holding one of the codes 11..15, which no command produces (R171, U5).
  Safe: no state reached from reset holds one (log 10). -/
  | reservedErrCode
deriving DecidableEq, Repr

/-- Why the model declines a step. -/
inductive Refusal where
  /-- Raised by no meaning: an arm of `exec` without a meaning would answer it. Safe. -/
  | notModelled (mnemonic : String)
  /-- Raised by every step under a configuration whose three bytes are not pairwise distinct (R6, U10). Safe: such a
  configuration is not an FCE-1 configuration (log 4). -/
  | badConfiguration
deriving DecidableEq, Repr

/-- What a step of this machine answers. -/
abbrev Result := Host.Outcome State Fault Refusal

end Sys2Proof.Machine
end

