-- ==== Sys2Proof/Machine/Ops.lean ====
section
/-! DEFINITION. The named operations over the buffers' memory and the registers: reading and writing a byte, the checksum
function, the end of a command (`finish`, `raise`), command acceptance and the hazard flag. -/

namespace Sys2Proof.Machine

/-! ## Memory -/

/-- The byte written at offset `a` since reset, if there is one. -/
def Memory.entry : Memory → Nat → Option Byte
  | [], _ => none
  | (b, v) :: rest, a => if b = a then some v else Memory.entry rest a

/-- The byte at offset `a`: the one written there, else the reset draw of R44 (this is the one definition of what an
unlisted offset reads as, log 5). -/
def Memory.read (m : Memory) (epoch a : Nat) : Byte :=
  match m.entry a with
  | some v => v
  | none => Config.resetByte epoch a

/-- Write one byte, keeping the offsets in rising order. -/
def Memory.write : Memory → Nat → Byte → Memory
  | [], a, v => [(a, v)]
  | (b, w) :: rest, a, v =>
    if a < b then (a, v) :: (b, w) :: rest
    else if a = b then (a, v) :: rest
    else (b, w) :: Memory.write rest a v

/-- Write `f 0, …, f (n-1)` to the offsets `base, …, base + n - 1`, in that order. -/
def Memory.fill (m : Memory) (base : Nat) (f : Nat → Byte) : Nat → Memory
  | 0 => m
  | n + 1 => (m.fill base f n).write (base + n) (f n)

/-- The three buffers occupy the offsets below this one (R60). -/
abbrev bufferEnd : Nat := 0x300

/-- The canonical form: offsets strictly rising, all of them inside the buffers. Since an unlisted offset reads as a free
value, no entry can be compared with it; which bytes are listed is which bytes were written since reset (log 5). -/
abbrev Memory.wf (m : Memory) : Prop :=
  (m.map Prod.fst).Pairwise (· < ·) ∧ ∀ c ∈ m, c.1 < bufferEnd

/-- The buffer byte at window offset `a`. -/
def State.byteAt (s : State) (a : Nat) : Byte := s.mem.read s.epoch a

/-- Store one buffer byte at window offset `a`. -/
def State.store (s : State) (a : Nat) (v : Byte) : State := { s with mem := s.mem.write a v }

/-! ## The checksum (40_checksum.md) -/

/-- `ck(B, a, b)` (R100): XOR from `CK_SEED` over the bytes `B[a .. b)`. -/
def ck (B : Nat → Byte) (a b : Nat) : Byte :=
  (List.range' a (b - a)).foldl (fun acc i => acc ^^^ B i) ckSeed

/-! ## The end of a command (30_encoding.md R91, 60_exceptions.md R171) -/

/-- The completion codes of R171. -/
inductive Code where
  /-- `OK` -/
  | ok
  /-- `TOO_SHORT` -/
  | tooShort
  /-- `BAD_START` -/
  | badStart
  /-- `BAD_LENGTH` -/
  | badLength
  /-- `BAD_CHECKSUM` -/
  | badChecksum
  /-- `BAD_TYPE` -/
  | badType
  /-- `RANGE` -/
  | range
  /-- `INVALID` -/
  | invalid
  /-- `INCONSISTENT_PAYLOAD` -/
  | inconsistentPayload
  /-- `TOO_LONG` -/
  | tooLong
  /-- `ILLEGAL_CMD` -/
  | illegalCmd
deriving DecidableEq, Repr

/-- The numeric values of R171. -/
def Code.bits : Code → BitVec 4
  | .ok => 0
  | .tooShort => 1
  | .badStart => 2
  | .badLength => 3
  | .badChecksum => 4
  | .badType => 5
  | .range => 6
  | .invalid => 7
  | .inconsistentPayload => 8
  | .tooLong => 9
  | .illegalCmd => 10

/-- The codes 0..10 are the ones a command can leave in `ERR.CODE`; 11..15 are never produced (R171, U5). -/
def codeProduced (e : BitVec 4) : Bool := decide (e.toNat ≤ 10)

/-- `finish(code, res)` (R91): the last action of every command. -/
def State.finish (s : State) (c : Code) (res : Bool) : State :=
  { s with err := c.bits, result := res, busy := false, done := true }

/-- `raise E` (00_scope.md R9): `finish(E, 0)`. This is all there is of an exception: the engine has no trap entry and no
return from one (R170, R179, R180). -/
def State.raise (s : State) (c : Code) : State := s.finish c false

/-- The completion of an illegal command byte (R85, R96): `finish(ILLEGAL_CMD, 0)` and no other write. -/
def State.finishIllegal (s : State) : State := s.raise .illegalCmd

/-! ## Issue -/

/-- Command acceptance (R92): a `CMD` write of `v` while idle. -/
def State.accept (s : State) (v : Byte) : State := { s with op := v, busy := true, done := false }

/-- The effect of a write that is ignored because a command is in flight (R93, R205): the sticky hazard flag. -/
def State.flagHazard (s : State) : State := { s with hz := true }

/-! ## Reset (70_reset_and_hazards.md R200, R201) -/

/-- The reset event: every register takes its reset value (R43), a command in flight is abandoned (R201), and every buffer
byte becomes unspecified again: no byte is listed, and the next epoch's draws apply (R44). The configuration stays (R45); the
events still to come and what the host has read are not the engine's (log 11). -/
def State.resetEvent (s : State) : State :=
  { State.reset with
    cfg := s.cfg, epoch := s.epoch + 1, draws := s.draws, inputs := s.inputs, readLog := s.readLog }

/-! ## The host's address map (20_memory.md R60) -/

/-- The bus address of a window offset: the base is added to every offset. -/
def busAddr (c : Config) (off : Offset) : Nat := c.base + off.toNat

/-- The window offset a bus address falls on, if it falls in the window. -/
def offsetOf? (c : Config) (addr : Nat) : Option Offset :=
  if c.base ≤ addr ∧ addr < c.base + windowSize then some (BitVec.ofNat 12 (addr - c.base)) else none

end Sys2Proof.Machine
end

