-- ==== Sys2Proof/Machine/Operands.lean ====
section
/-! DEFINITION. Where operands live: the window map of 20_memory.md rule R60, the three buffers and the split 9-bit lengths.
No command has an explicit operand (30_encoding.md rule R81). -/

namespace Sys2Proof.Machine

/-- The three buffers (R40 to R42). -/
inductive Buf where
  /-- receive -/
  | rx
  /-- transmit -/
  | tx
  /-- payload -/
  | pay
deriving DecidableEq, Repr

/-- The window offset of a buffer's byte 0 (R60). -/
def Buf.base : Buf → Nat
  | .rx => 0x000
  | .tx => 0x100
  | .pay => 0x200

/-- `RX[i]` (R40). -/
def State.rx (s : State) (i : Nat) : Byte := s.byteAt (Buf.base .rx + i)
/-- `TX[i]` (R41). -/
def State.tx (s : State) (i : Nat) : Byte := s.byteAt (Buf.base .tx + i)
/-- `PAY[i]` (R42). -/
def State.pay (s : State) (i : Nat) : Byte := s.byteAt (Buf.base .pay + i)

/-- The registers of the window, in the order of their offsets from 0x300 (R60). -/
inductive Reg where
  /-- 0x300 (R23) -/
  | cmd
  /-- 0x301 (R24) -/
  | status
  /-- 0x302 (R25) -/
  | err
  /-- 0x303 (R26) -/
  | ctrl
  /-- 0x304 (R27) -/
  | rxlenL
  /-- 0x305 (R27) -/
  | rxlenH
  /-- 0x306 (R28) -/
  | txlenL
  /-- 0x307 (R28) -/
  | txlenH
  /-- 0x308 (R29) -/
  | msgType
  /-- 0x309 (R30) -/
  | msgFid
  /-- 0x30A (R31) -/
  | msgPlen
  /-- 0x30B (R32) -/
  | msgFlags
  /-- 0x30C (R33) -/
  | msgCs
  /-- 0x30D (R34) -/
  | chk
  /-- 0x30E (R35) -/
  | rxKind
deriving DecidableEq, Repr

/-- What a window offset names (R60). -/
inductive Loc where
  /-- byte `i` of a buffer -/
  | buf (b : Buf) (i : Fin 256)
  /-- a register -/
  | reg (r : Reg)
  /-- 0x30F..0xFFF (R36) -/
  | reserved
deriving DecidableEq, Repr

/-- The registers by their distance from 0x300. -/
def Reg.table : List Reg :=
  [.cmd, .status, .err, .ctrl, .rxlenL, .rxlenH, .txlenL, .txlenH, .msgType, .msgFid, .msgPlen, .msgFlags, .msgCs, .chk,
    .rxKind]

/-- The window map (R60). -/
def locate (off : Offset) : Loc :=
  let n := off.toNat
  let i : Fin 256 := Fin.ofNat 256 n
  if n < 0x100 then .buf .rx i
  else if n < 0x200 then .buf .tx i
  else if n < 0x300 then .buf .pay i
  else match Reg.table[n - 0x300]? with
    | some r => .reg r
    | none => .reserved

/-- The low byte of a 9-bit length (R61). -/
def lenLow (l : Len) : Byte := l.extractLsb' 0 8

/-- The high register of a 9-bit length: bit 0 is the length's bit 8, the rest is reserved (R27, R28). -/
def lenHigh (l : Len) : Byte := (l.extractLsb' 8 1).setWidth 8

/-- A write of `v` to the low register keeps bit 8 (R208). -/
def withLenLow (l : Len) (v : Byte) : Len := l.extractLsb' 8 1 ++ v

/-- A write of `v` to the high register keeps bits 7:0 and takes bit 0 of `v` (R27). -/
def withLenHigh (l : Len) (v : Byte) : Len := v.extractLsb' 0 1 ++ l.extractLsb' 0 8

end Sys2Proof.Machine
end

