-- ==== Sys2Proof/Machine/Flags.lean ====
section
/-! DEFINITION. The flag registers as the host sees them (10_state.md rules R24 to R26, R32, R35) and the interrupt output. -/

namespace Sys2Proof.Machine

/-- The `STATUS` byte (R24): `HZ`, `RESULT`, `DONE`, `BUSY` in bits 3..0, zeros above. -/
def statusBits (busy done result hz : Bool) : Byte :=
  0#4 ++ BitVec.ofBool hz ++ BitVec.ofBool result ++ BitVec.ofBool done ++ BitVec.ofBool busy

/-- `STATUS` as stored. -/
def State.statusByte (s : State) : Byte := statusBits s.busy s.done s.result s.hz

/-- `ERR` (R25): `CODE` in bits 3:0. -/
def State.errByte (s : State) : Byte := s.err.setWidth 8

/-- `CTRL` (R26): `IE` in bit 0. -/
def State.ctrlByte (s : State) : Byte := (BitVec.ofBool s.ie).setWidth 8

/-- `MSG_FLAGS` (R32): `VALID` in bit 0, `PPRES` in bit 1. -/
def State.flagsByte (s : State) : Byte := 0#6 ++ BitVec.ofBool s.ppres ++ BitVec.ofBool s.valid

/-- The values of `RX_KIND.KIND` (R35). -/
def RxKind.bits : RxKind → BitVec 2
  | .none => 0
  | .envelope => 1
  | .ack => 2
  | .nack => 3

/-- The interrupt output (R38, R177). -/
def State.irq (s : State) : Bool := s.ie && s.done

/-- A host write of `v` to `STATUS` (R24): `DONE` and `HZ` are cleared where the written bit is 1. -/
def State.writeStatus (s : State) (v : Byte) : State :=
  { s with done := s.done && !v.getLsbD 1, hz := s.hz && !v.getLsbD 3 }

/-- A host write of `v` to `CTRL` (R26). -/
def State.writeCtrl (s : State) (v : Byte) : State := { s with ie := v.getLsbD 0 }

/-- A host write of `v` to `MSG_FLAGS` (R32). -/
def State.writeFlags (s : State) (v : Byte) : State := { s with valid := v.getLsbD 0, ppres := v.getLsbD 1 }

end Sys2Proof.Machine
end

