-- ==== Sys2Proof/Machine/Checksum.lean ====
section
/-! DEFINITION. The checksum commands `CALC` and `CHECK` (40_checksum.md). -/

namespace Sys2Proof.Machine

/-- `CALC` (R102). -/
def execCalc (s : State) : Host.Outcome State Fault Refusal :=
  let len := s.rxLen.toNat
  if len > bufSize then .next (s.raise .range)
  else .next (({ s with chk := ck s.rx 0 len } : State).finish .ok true)

/-- `CHECK` (R103): a mismatch is a result, not an error. -/
def execCheck (s : State) : Host.Outcome State Fault Refusal :=
  let n := s.rxLen.toNat
  if n > bufSize then .next (s.raise .range)
  else if n < minFrame then .next (s.raise .tooShort)
  else
    let c := ck s.rx 1 (n - 1)
    .next (({ s with chk := c } : State).finish .ok (decide (c = s.rx (n - 1))))

end Sys2Proof.Machine
end

