-- ==== Sys2Proof/Machine/Decoding.lean ====
section
/-! DEFINITION. The decode commands `DECODE` and `RECV` (41_decode.md). -/

namespace Sys2Proof.Machine

/-- A failing decode (R130): `RX_KIND <- NONE`, then `raise`. -/
def State.failDecode (s : State) (c : Code) : State := ({ s with rxKind := .none } : State).raise c

/-- The success writes of R127 and R128, for a frame of `n` bytes. -/
def State.acceptEnvelope (s : State) (n : Nat) : State :=
  ({ s with
    msgType := (s.rx 2).extractLsb' 0 1
    msgFid := s.rx 3
    msgPlen := BitVec.ofNat 8 (n - 5)
    mem := s.mem.fill (Buf.base .pay) (fun j => s.rx (4 + j)) (n - 5)
    msgCs := s.rx (n - 1)
    valid := true
    ppres := decide (n - 5 ≠ 0)
    rxKind := .envelope } : State).finish .ok true

/-- Envelope decoding (R120), the checks in the order of R121. `DECODE` is this, and `RECV` where the buffer is no control
frame (R137). -/
def State.decodeEnvelope (s : State) : State :=
  let n := s.rxLen.toNat
  if n < minFrame then s.failDecode .tooShort
  else if s.rx 0 ≠ s.cfg.start then s.failDecode .badStart
  else if (s.rx 1).toNat ≠ n - 2 then s.failDecode .badLength
  else if n > bufSize then s.failDecode .range
  else
    let c := ck s.rx 1 (n - 1)
    let s1 := { s with chk := c }
    if c ≠ s.rx (n - 1) then s1.failDecode .badChecksum
    else if s.rx 2 ≠ typeRequest ∧ s.rx 2 ≠ typeResponse then s1.failDecode .badType
    else s1.acceptEnvelope n

/-- A recognised control frame (R135, R136). -/
def State.acceptControl (s : State) (k : RxKind) : State := ({ s with rxKind := k } : State).finish .ok true

/-- `DECODE` (R120). -/
def execDecode (s : State) : Host.Outcome State Fault Refusal := .next s.decodeEnvelope

/-- `RECV` (R135). -/
def execRecv (s : State) : Host.Outcome State Fault Refusal :=
  if s.rxLen.toNat = 1 ∧ s.rx 0 = s.cfg.ack then .next (s.acceptControl .ack)
  else if s.rxLen.toNat = 1 ∧ s.rx 0 = s.cfg.nack then .next (s.acceptControl .nack)
  else .next s.decodeEnvelope

end Sys2Proof.Machine
end

