-- ==== Sys2Proof/Machine/Encoding.lean ====
section
/-! DEFINITION. The encode commands `ENCODE`, `CTRL_ACK` and `CTRL_NACK` (42_encode.md). -/

namespace Sys2Proof.Machine

/-- The bytes `ENCODE` writes before the checksum, by their index in `TX` (R155). -/
def State.envelopeByte (s : State) (i : Nat) : Byte :=
  match i with
  | 0 => s.cfg.start
  | 1 => BitVec.ofNat 8 (s.msgPlen.toNat + 3)
  | 2 => s.msgType.setWidth 8
  | 3 => s.msgFid
  | j + 4 => s.pay j

/-- `ENCODE` (R150), the checks in the order of R151. The checksum is taken over the bytes just written to `TX` (R156). -/
def execEncode (s : State) : Host.Outcome State Fault Refusal :=
  let L := s.msgPlen.toNat
  if s.valid = false then .next (s.raise .invalid)
  else if (s.ppres = false ∧ 0 < L) ∨ (s.ppres = true ∧ L = 0) then .next (s.raise .inconsistentPayload)
  else if L > maxPayload then .next (s.raise .tooLong)
  else
    let s1 := { s with mem := s.mem.fill (Buf.base .tx) s.envelopeByte (L + 4) }
    let c := ck s1.tx 1 (L + 4)
    let s2 := s1.store (Buf.base .tx + (L + 4)) c
    .next (({ s2 with txLen := BitVec.ofNat 9 (L + 5), chk := c } : State).finish .ok true)

/-- A one-byte control frame (R160, R161): `TX[0] <- b; TX_LEN <- 1`. -/
def State.emitControl (s : State) (b : Byte) : State :=
  ({ s.store (Buf.base .tx) b with txLen := 1 } : State).finish .ok true

/-- `CTRL_ACK` (R160). -/
def execCtrlAck (s : State) : Host.Outcome State Fault Refusal := .next (s.emitControl s.cfg.ack)

/-- `CTRL_NACK` (R161). -/
def execCtrlNack (s : State) : Host.Outcome State Fault Refusal := .next (s.emitControl s.cfg.nack)

end Sys2Proof.Machine
end

