-- ==== Sys2Proof/Machine/Dispatch.lean ====
section
/-! DEFINITION. One arm per command (30_encoding.md rule R96). -/

namespace Sys2Proof.Machine

def exec (i : Instr) (s : State) : Host.Outcome State Fault Refusal :=
  match i with
  | .calcSum => Sys2Proof.Machine.execCalc s
  | .check => Sys2Proof.Machine.execCheck s
  | .decode => Sys2Proof.Machine.execDecode s
  | .encode => Sys2Proof.Machine.execEncode s
  | .ctrlAck => Sys2Proof.Machine.execCtrlAck s
  | .ctrlNack => Sys2Proof.Machine.execCtrlNack s
  | .recv => Sys2Proof.Machine.execRecv s

end Sys2Proof.Machine
end

