-- ==== Sys2Proof/Machine/Window.lean ====
section
/-! DEFINITION. The completion step and the host's side of the window: reads, writes and their hazards (10_state.md,
20_memory.md, 30_encoding.md rules R92 to R96, 70_reset_and_hazards.md rules R205 and R206). -/

namespace Sys2Proof.Machine

/-! ## Completion -/

/-- The semantics of the byte in `OP` (R96). -/
def complete (s : State) : Host.Outcome State Fault Refusal :=
  match decodeByte s.op with
  | .ok i => exec i s
  | .error _ => .next s.finishIllegal

/-- The engine's turn (R95): the completion while `BUSY = 1`, no step while `BUSY = 0` (the turn passes, log 8). -/
def engineTurn (s : State) : Host.Outcome State Fault Refusal :=
  if s.busy then complete s else .next s

/-! ## Reads -/

/-- What a register holds, as the host reads it when no command is in flight (R23 to R35). -/
def State.regByte (s : State) : Reg → Byte
  | .cmd => 0
  | .status => s.statusByte
  | .err => s.errByte
  | .ctrl => s.ctrlByte
  | .rxlenL => lenLow s.rxLen
  | .rxlenH => lenHigh s.rxLen
  | .txlenL => lenLow s.txLen
  | .txlenH => lenHigh s.txLen
  | .msgType => s.msgType.setWidth 8
  | .msgFid => s.msgFid
  | .msgPlen => s.msgPlen
  | .msgFlags => s.flagsByte
  | .msgCs => s.msgCs
  | .chk => s.chk
  | .rxKind => s.rxKind.bits.setWidth 8

/-- The stored byte of a location (R60). -/
def State.locByte (s : State) : Loc → Byte
  | .buf b i => s.byteAt (b.base + i.val)
  | .reg r => s.regByte r
  | .reserved => 0

/-- What `DECODE` and `RECV` may write (R94): the message registers, `CHK`, `RX_KIND` and `PAY[0..252)`. -/
def decodeWrites (l : Loc) : Bool :=
  match l with
  | .reg r => [Reg.msgType, .msgFid, .msgPlen, .msgFlags, .msgCs, .chk, .rxKind].contains r
  | .buf .pay i => decide (i.val < 252)
  | _ => false

/-- What `ENCODE` may write (R94): all of `TX`, `TX_LEN` and `CHK`. -/
def encodeWrites (l : Loc) : Bool :=
  match l with
  | .reg r => [Reg.txlenL, .txlenH, .chk].contains r
  | .buf b _ => decide (b = .tx)
  | _ => false

/-- What the control frame commands may write (R94): `TX[0]` and `TX_LEN`. -/
def controlWrites (l : Loc) : Bool :=
  match l with
  | .reg r => [Reg.txlenL, .txlenH].contains r
  | .buf .tx i => decide (i.val = 0)
  | _ => false

/-- The write set of each command, row by row of R94. -/
def commandWrites (i : Instr) (l : Loc) : Bool :=
  match i with
  | .calcSum => decide (l = .reg .chk)
  | .check => decide (l = .reg .chk)
  | .decode => decodeWrites l
  | .recv => decodeWrites l
  | .encode => encodeWrites l
  | .ctrlAck => controlWrites l
  | .ctrlNack => controlWrites l

/-- The write set of the byte in `OP` (R94), with `ERR` and the `RESULT` bit of `STATUS`, which are in every command's. -/
def inWriteSet (op : Byte) (l : Loc) : Bool :=
  decide (l = .reg .err) || decide (l = .reg .status) ||
    match decodeByte op with
    | .ok i => commandWrites i l
    | .error _ => false

/-- The state the pending completion will leave. -/
def State.completed (s : State) : State :=
  match complete s with
  | .next t => t
  | _ => s

/-- The byte the pending completion will write to a location of its write set (R206). Of `STATUS` only `RESULT` is in it:
`BUSY` and `DONE` are always exact, and `HZ` no command writes. -/
def State.newByte (s : State) : Loc → Byte
  | .reg .status => statusBits s.busy s.done s.completed.result s.hz
  | l => s.completed.locByte l

/-- A read that meets the read hazard (R206). -/
def State.raced (s : State) (l : Loc) : Bool := s.busy && inWriteSet s.op l

/-- What a host read of a location returns: the stored byte, or under the read hazard a draw between the stored byte (which
is the one held at acceptance, log 6) and the one to be written. -/
def State.readByte (s : State) (l : Loc) : Byte :=
  if s.raced l && Config.raceNew s.draws then s.newByte l else s.locByte l

/-- A host read (R65: no side effect on the engine). The byte goes to the host; a raced read uses up one draw. -/
def hostRead (s : State) (l : Loc) : Host.Outcome State Fault Refusal :=
  if l = .reg .err ∧ codeProduced s.err = false then .fault .reservedErrCode
  else
    .next
      { s with
        readLog := s.readByte l :: s.readLog
        draws := if s.raced l then s.draws + 1 else s.draws }

/-! ## Writes -/

/-- The locations whose writes are ignored and flagged while a command is in flight (R205). -/
def Loc.guarded : Loc → Bool
  | .buf _ _ => true
  | .reg .cmd | .reg .rxlenL | .reg .rxlenH | .reg .msgType | .reg .msgFid | .reg .msgPlen | .reg .msgFlags
  | .reg .msgCs => true
  | _ => false

/-- A host write that is not held off by the hazard: each register takes the bits it has (R23 to R35); read-only and
reserved locations ignore it (R36). -/
def State.applyWrite (s : State) (l : Loc) (v : Byte) : State :=
  match l with
  | .buf b i => s.store (b.base + i.val) v
  | .reg .cmd => s.accept v
  | .reg .status => s.writeStatus v
  | .reg .ctrl => s.writeCtrl v
  | .reg .rxlenL => { s with rxLen := withLenLow s.rxLen v }
  | .reg .rxlenH => { s with rxLen := withLenHigh s.rxLen v }
  | .reg .msgType => { s with msgType := v.extractLsb' 0 1 }
  | .reg .msgFid => { s with msgFid := v }
  | .reg .msgPlen => { s with msgPlen := v }
  | .reg .msgFlags => s.writeFlags v
  | .reg .msgCs => { s with msgCs := v }
  | .reg .err | .reg .txlenL | .reg .txlenH | .reg .chk | .reg .rxKind => s
  | .reserved => s

/-- A host write (R66, R92, R93, R205). -/
def hostWrite (s : State) (l : Loc) (v : Byte) : State :=
  if s.busy && l.guarded then s.flagHazard else s.applyWrite l v

/-- A host access at a bus address (R60). -/
def hostAccess (s : State) (op : HostOp) : Host.Outcome State Fault Refusal :=
  match op with
  | .rd addr =>
    match offsetOf? s.cfg addr with
    | some off => hostRead s (locate off)
    | none => .fault .outsideWindow
  | .wr addr v =>
    match offsetOf? s.cfg addr with
    | some off => .next (hostWrite s (locate off) v)
    | none => .fault .outsideWindow

end Sys2Proof.Machine
end

