-- ==== Sys2Proof/Machine/Step.lean ====
section
/-! DEFINITION. One step of the machine: the next event of the platform, taken alone (60_exceptions.md rule R176). -/

namespace Sys2Proof.Machine

/-- The step. A configuration that breaks R6 is refused. With no event pending the engine takes its turn, so a command in
flight completes (R95). -/
def step (s : State) : Host.Outcome State Fault Refusal :=
  if s.cfg.wf then
    match s.inputs with
    | [] => engineTurn s
    | .engine :: rest => engineTurn { s with inputs := rest }
    | .reset :: rest => .next (State.resetEvent { s with inputs := rest })
    | .host op :: rest => hostAccess { s with inputs := rest } op
  else .refused .badConfiguration

/-- The engine has no fetch (R21): a command comes to run by an accepted `CMD` write (R92). This is the state after one, with
the engine's turn next, so that the very next step is the completion of that command (log 13). -/
def State.withFetchWord (s : State) (_nbits w : Nat) : State :=
  { s.accept (BitVec.ofNat 8 w) with inputs := .engine :: s.inputs }

end Sys2Proof.Machine
end

