-- ==== Sys2Proof/Machine/HostSyntax.lean ====
section
/-! DEFINITION. The host assembly syntax, its words and its pseudo-operations (30_encoding.md rules R87 and R88). A notation
for host programs: the engine decodes none of it (93_implementation_defined.md U15). -/

namespace Sys2Proof.Machine

/-- One line of a host program, on window offsets (R87). -/
inductive Line where
  /-- `rd OFF` -/
  | rd (off : Offset)
  /-- `wr OFF, V` -/
  | wr (off : Offset) (v : Byte)
deriving DecidableEq, Repr

/-- The 24-bit host-op word of a line (R87). -/
def Line.word : Line → BitVec 24
  | .rd off => 0#1 ++ 0#3 ++ off ++ 0#8
  | .wr off v => 1#1 ++ 0#3 ++ off ++ v

/-- The event a line is, on the bus of a configuration (R60). -/
def Line.input (c : Config) : Line → Input
  | .rd off => .host (.rd (busAddr c off))
  | .wr off v => .host (.wr (busAddr c off) v)

/-- `cmd M` (R88). -/
def cmdLine (i : Instr) : Line := .wr 0x300 (encodeByte i)

/-- `setrxlen n` (R88). -/
def setRxLenLines (n : Len) : List Line := [.wr 0x304 (lenLow n), .wr 0x305 (lenHigh n)]

/-- Writes of consecutive bytes from an offset on: `ldrx` from 0x000, `ldpay` from 0x200 (R88). -/
def loadLines (off : Offset) : List Byte → List Line
  | [] => []
  | b :: rest => .wr off b :: loadLines (off + 1) rest

/-- `ldrx` (R88). -/
def ldrxLines (bytes : List Byte) : List Line := loadLines 0x000 bytes

/-- `ldpay` (R88). -/
def ldpayLines (bytes : List Byte) : List Line := loadLines 0x200 bytes

/-- `clrdone` (R88). -/
def clrDoneLine : Line := .wr 0x301 0x02

/-- `clrhz` (R88). -/
def clrHzLine : Line := .wr 0x301 0x08

/-- `wait` (R88) under the schedule in which the completion falls after `k` polls that still read `BUSY = 1` (log 17): the
bus operations of the loop with the engine's turn between them. -/
def waitInputs (c : Config) (k : Nat) : List Input :=
  List.replicate k ((Line.rd 0x301).input c) ++ [.engine, (Line.rd 0x301).input c]

/-- `run M` (R88): `cmd M` then `wait`. -/
def runInputs (c : Config) (i : Instr) (k : Nat) : List Input := (cmdLine i).input c :: waitInputs c k

/-- The events of a straight-line host program. -/
def linesInputs (c : Config) (p : List Line) : List Input := p.map (Line.input c)

end Sys2Proof.Machine
end

