-- ==== Sys2Proof/Safety.lean ====
section
/-! DEFINITION. What counts as a good state and a safe run. -/

namespace Sys2Proof

open Machine

/-- The values `TX_LEN` takes (10_state.md R28): 0 (reset only), 1, and 5..256. -/
def txLenLegal (l : Len) : Prop := l.toNat = 0 ∨ l.toNat = 1 ∨ (5 ≤ l.toNat ∧ l.toNat ≤ 256)

/-- The invariant of the machine. -/
structure Inv (s : State) : Prop where
  /-- the configuration is an FCE-1 configuration (R6) -/
  cfgWf : s.cfg.wf = true
  /-- the buffers' memory is in canonical form (log 5) -/
  memWf : s.mem.wf
  /-- a command in flight has not finished (R91, R92) -/
  busyNotDone : s.busy = true → s.done = false
  /-- the codes 11..15 are never produced (R171) -/
  errProduced : s.err.toNat ≤ 10
  /-- `RESULT = 1` only after `OK` (R24) -/
  resultOk : s.result = true → s.err = 0
  /-- the values of `TX_LEN` (R28) -/
  txLen : txLenLegal s.txLen

/-- An access to this engine's window (R60). -/
def opInWindow (c : Config) : HostOp → Prop
  | .rd addr => c.base ≤ addr ∧ addr < c.base + 0x1000
  | .wr addr _ => c.base ≤ addr ∧ addr < c.base + 0x1000

/-- The pending accesses are all accesses to this engine's window. -/
def inputsInWindow (s : State) : Prop := ∀ op, Input.host op ∈ s.inputs → opInWindow s.cfg op

/-- The write set of the command byte `op` as offsets, row by row of 30_encoding.md R94, `ERR` included; `STATUS` (0x301),
of which a command writes `RESULT`, `BUSY` and `DONE` only, is treated apart. Written without the model's `inWriteSet`. -/
def writeSetOffset (op : Byte) (n : Nat) : Prop :=
  n = 0x302 ∨
  ((op = 0x10 ∨ op = 0x20) ∧ n = 0x30D) ∨
  ((op = 0x30 ∨ op = 0x60) ∧ ((0x308 ≤ n ∧ n ≤ 0x30E) ∨ (0x200 ≤ n ∧ n < 0x200 + 252))) ∨
  (op = 0x40 ∧ ((0x100 ≤ n ∧ n < 0x200) ∨ n = 0x306 ∨ n = 0x307 ∨ n = 0x30D)) ∨
  ((op = 0x50 ∨ op = 0x51) ∧ (n = 0x100 ∨ n = 0x306 ∨ n = 0x307))

/-- Every register field holds its reset value (the table of 10_state.md R43), and the interrupt output is 0. -/
def atResetValues (s : State) : Prop :=
  s.busy = false ∧ s.done = false ∧ s.result = false ∧ s.hz = false ∧ s.err = 0 ∧ s.ie = false ∧ s.rxLen = 0 ∧
  s.txLen = 0 ∧ s.msgType = 0 ∧ s.msgFid = 0 ∧ s.msgPlen = 0 ∧ s.valid = false ∧ s.ppres = false ∧ s.msgCs = 0 ∧
  s.chk = 0 ∧ s.rxKind = .none ∧ s.irq = false

/-- A safe run: `n` steps without a fault or a refusal, ending in a good state. -/
def SafeRun (n : Nat) (s : State) : Prop := ∃ t, core.run n s = .next t ∧ Inv t

end Sys2Proof
end

