-- ==== Sys2Proof/Certificates/Slice0/Obligations.lean ====
section
/-! DEFINITION. The statements for the provers. Nothing is proved here. Record updates on the right of an equation name every
field that changes; all other fields are unchanged by the equation itself. -/

open Sys2Proof Sys2Proof.Machine

/-! ## Encoding -/

/-- 30_encoding.md R84: the seven command bytes and their fields. -/
def Obligations.OpcodeMapBytes : Prop :=
  ∀ p ∈ ([(0x10, 1, 0, .calcSum), (0x20, 2, 0, .check), (0x30, 3, 0, .decode), (0x40, 4, 0, .encode), (0x50, 5, 0, .ctrlAck),
      (0x51, 5, 1, .ctrlNack), (0x60, 6, 0, .recv)] : List (Byte × BitVec 4 × BitVec 1 × Instr)),
    decodeByte p.1 = .ok p.2.2.2 ∧ encodeByte p.2.2.2 = p.1 ∧
      p.2.2.2.fields = { opc := p.2.1, z := 0, k := p.2.2.1 }

/-- R80, R84: decoding what was encoded gives it back, whatever bytes follow, and only what was encoded decodes. -/
def Obligations.DecodeAndEncodeAgree : Prop :=
  (∀ i rest, decode (encode i ++ rest) = .ok (i, rest)) ∧
  (∀ bytes i rest, decode bytes = .ok (i, rest) → bytes = encode i ++ rest)

/-- R80: which bytes are commands, by the bit fields of the byte's number. -/
def Obligations.CommandByteFormat : Prop :=
  ∀ b : Byte, (∃ i, decodeByte b = .ok i) ↔
    (1 ≤ b.toNat / 16 ∧ b.toNat / 16 ≤ 6) ∧ b.toNat / 2 % 8 = 0 ∧ (b.toNat % 2 = 0 ∨ b.toNat / 16 = 5)

/-- R85: the 249 other bytes are illegal; each is accepted, and completes with `ILLEGAL_CMD` and no other write. -/
def Obligations.IllegalCommandBytes : Prop :=
  ((List.range 256).filter (fun n => (decodeByte (BitVec.ofNat 8 n)).toOption.isNone)).length = 249 ∧
  (∀ b : Byte, (¬∃ i, decodeByte b = .ok i) ↔ b ∉ ([0x10, 0x20, 0x30, 0x40, 0x50, 0x51, 0x60] : List Byte)) ∧
  (∀ b : Byte, b.toNat / 2 % 8 ≠ 0 → ¬∃ i, decodeByte b = .ok i) ∧
  (∀ b : Byte, b.toNat % 2 = 1 → b.toNat / 16 ≠ 5 → ¬∃ i, decodeByte b = .ok i) ∧
  (∀ (s : State) (b : Byte) rest, s.cfg.wf = true → s.busy = false → (¬∃ i, decodeByte b = .ok i) →
    s.inputs = .host (.wr (busAddr s.cfg 0x300) b) :: .engine :: rest →
    core.run 1 s = .next { s with inputs := .engine :: rest, op := b, busy := true, done := false } ∧
    core.run 2 s = .next { s with inputs := rest, op := b, err := 10, result := false, busy := false, done := true })

/-! ## Issue and completion -/

/-- R95, R96: the engine's turn in a busy state is `exec` of the decoded command at that state, with the event taken off the
list; with no event pending the engine takes its turn at once (the model's choice, log 7). -/
def Obligations.StepRunsDecodedCommand : Prop :=
  ∀ (s : State) (i : Instr), s.cfg.wf = true → s.busy = true → decodeByte s.op = .ok i →
    (s.inputs = [] → step s = exec i s) ∧
    (∀ rest, s.inputs = .engine :: rest → step s = exec i { s with inputs := rest })

/-- R92, R96 (log 13): the step after `withFetchWord` runs the word's command. -/
def Obligations.FetchWordRunsNext : Prop :=
  ∀ (s : State) (i : Instr) (w : Nat), s.cfg.wf = true → decodeByte (BitVec.ofNat 8 w) = .ok i →
    step (s.withFetchWord 8 w) = exec i { s with op := BitVec.ofNat 8 w, busy := true, done := false } ∧
    decodeTableWord 8 w = some i

/-- R92: acceptance of a command byte, legal or not; and until the completion, whatever the host does to the window, every
output keeps its old value and the command in flight is the accepted byte. -/
def Obligations.CommandAcceptance : Prop :=
  (∀ (s : State) (v : Byte) rest, s.cfg.wf = true → s.busy = false →
    s.inputs = .host (.wr (busAddr s.cfg 0x300) v) :: rest →
    step s = .next { s with inputs := rest, op := v, busy := true, done := false }) ∧
  (∀ (s : State) (v : Byte) (ops : List HostOp) rest, s.cfg.wf = true → s.busy = false → s.err.toNat ≤ 10 →
    (∀ op ∈ ops, opInWindow s.cfg op) →
    s.inputs = .host (.wr (busAddr s.cfg 0x300) v) :: (ops.map .host ++ rest) →
    ∃ r, core.run (ops.length + 1) s = .next r ∧
      r = { s with
        inputs := rest, op := v, busy := true, done := false, hz := r.hz, ie := r.ie, draws := r.draws,
        readLog := r.readLog })

/-- R93: a `CMD` write while busy is ignored and flagged. -/
def Obligations.BusyCommandWriteIgnored : Prop :=
  ∀ (s : State) (v : Byte) rest, s.cfg.wf = true → s.busy = true →
    s.inputs = .host (.wr (busAddr s.cfg 0x300) v) :: rest →
    step s = .next { s with inputs := rest, hz := true }

/-- R95, R187, R202: while idle the engine has no step; its turn passes and changes nothing (the model's choice, log 8). -/
def Obligations.IdleEngineDoesNothing : Prop :=
  ∀ s : State, s.cfg.wf = true → s.busy = false →
    (s.inputs = [] → step s = .next s) ∧
    (∀ rest, s.inputs = .engine :: rest → step s = .next { s with inputs := rest })

/-- R91, R170, R171: every command, legal or illegal, completes; it leaves the engine idle and done with a code that is
produced, `RESULT = 1` only with `OK`, `HZ` and `CTRL` untouched, and nothing of the host's side changed. -/
def Obligations.EveryCommandFinishes : Prop :=
  ∀ s : State, ∃ t, complete s = .next t ∧ t.busy = false ∧ t.done = true ∧ t.err.toNat ≤ 10 ∧
    (t.result = true → t.err = 0) ∧ t.hz = s.hz ∧ t.ie = s.ie ∧ t.irq = s.ie ∧ t.op = s.op ∧ t.cfg = s.cfg ∧
    t.epoch = s.epoch ∧ t.draws = s.draws ∧ t.inputs = s.inputs ∧ t.readLog = s.readLog

/-! ## Host writes -/

/-- R205 (with R24, R26, R36): what a host write does while a command is in flight, for every offset. -/
def Obligations.BusyWriteHazard : Prop :=
  ∀ (s : State) (off : Offset) (v : Byte) rest, s.cfg.wf = true → s.busy = true →
    s.inputs = .host (.wr (busAddr s.cfg off) v) :: rest →
    ((off.toNat ≤ 0x300 ∨ off.toNat = 0x304 ∨ off.toNat = 0x305 ∨ (0x308 ≤ off.toNat ∧ off.toNat ≤ 0x30C)) →
      step s = .next { s with inputs := rest, hz := true }) ∧
    (off.toNat = 0x301 →
      step s = .next { s with inputs := rest, done := s.done && !v.getLsbD 1, hz := s.hz && !v.getLsbD 3 }) ∧
    (off.toNat = 0x303 → step s = .next { s with inputs := rest, ie := v.getLsbD 0 }) ∧
    ((off.toNat = 0x302 ∨ off.toNat = 0x306 ∨ off.toNat = 0x307 ∨ 0x30D ≤ off.toNat) →
      step s = .next { s with inputs := rest })

/-- R24, R26 to R33, R36: what a host write to a register does while the engine is idle (`CMD` apart). -/
def Obligations.IdleRegisterWrites : Prop :=
  ∀ (s : State) (off : Offset) (v : Byte) rest, s.cfg.wf = true → s.busy = false →
    s.inputs = .host (.wr (busAddr s.cfg off) v) :: rest →
    (off.toNat = 0x301 →
      step s = .next { s with inputs := rest, done := s.done && !v.getLsbD 1, hz := s.hz && !v.getLsbD 3 }) ∧
    (off.toNat = 0x303 → step s = .next { s with inputs := rest, ie := v.getLsbD 0 }) ∧
    (off.toNat = 0x304 →
      step s = .next { s with inputs := rest, rxLen := BitVec.ofNat 9 (s.rxLen.toNat / 256 * 256 + v.toNat) }) ∧
    (off.toNat = 0x305 →
      step s = .next { s with inputs := rest, rxLen := BitVec.ofNat 9 (v.toNat % 2 * 256 + s.rxLen.toNat % 256) }) ∧
    (off.toNat = 0x308 → step s = .next { s with inputs := rest, msgType := BitVec.ofNat 1 v.toNat }) ∧
    (off.toNat = 0x309 → step s = .next { s with inputs := rest, msgFid := v }) ∧
    (off.toNat = 0x30A → step s = .next { s with inputs := rest, msgPlen := v }) ∧
    (off.toNat = 0x30B → step s = .next { s with inputs := rest, valid := v.getLsbD 0, ppres := v.getLsbD 1 }) ∧
    (off.toNat = 0x30C → step s = .next { s with inputs := rest, msgCs := v }) ∧
    ((off.toNat = 0x302 ∨ off.toNat = 0x306 ∨ off.toNat = 0x307 ∨ 0x30D ≤ off.toNat) →
      step s = .next { s with inputs := rest })

/-- R40 to R42, R66: a host write to a buffer byte while idle stores that byte and changes nothing else. -/
def Obligations.IdleBufferWrites : Prop :=
  ∀ (s : State) (off : Offset) (v : Byte) rest, s.cfg.wf = true → s.busy = false → off.toNat < 0x300 →
    s.inputs = .host (.wr (busAddr s.cfg off) v) :: rest →
    ∃ t, step s = .next t ∧ t = { s with inputs := rest, mem := t.mem } ∧
      ∀ a, t.byteAt a = if a = off.toNat then v else s.byteAt a

/-- R68: what the host wrote to a buffer byte is what its next read of that byte returns. -/
def Obligations.BufferReadReturnsLastWrite : Prop :=
  ∀ (s : State) (off : Offset) (v : Byte) rest, s.cfg.wf = true → s.busy = false → off.toNat < 0x300 →
    s.inputs = .host (.wr (busAddr s.cfg off) v) :: .host (.rd (busAddr s.cfg off)) :: rest →
    ∃ t, core.run 2 s = .next t ∧ t.readLog = v :: s.readLog

/-! ## Host reads -/

/-- R23 to R36, R60, R65: what a host read returns while the engine is idle, for every offset; it changes nothing but the
host's own log. -/
def Obligations.IdleReads : Prop :=
  ∀ (s : State) (off : Offset) rest, s.cfg.wf = true → s.busy = false → s.err.toNat ≤ 10 →
    s.inputs = .host (.rd (busAddr s.cfg off)) :: rest →
    ∃ v : Byte, step s = .next { s with inputs := rest, readLog := v :: s.readLog } ∧
      (off.toNat < 0x300 → v = s.byteAt off.toNat) ∧
      (off.toNat = 0x300 → v = 0) ∧
      (off.toNat = 0x301 → v.toNat = 2 * s.done.toNat + 4 * s.result.toNat + 8 * s.hz.toNat) ∧
      (off.toNat = 0x302 → v.toNat = s.err.toNat) ∧
      (off.toNat = 0x303 → v.toNat = s.ie.toNat) ∧
      (off.toNat = 0x304 → v.toNat = s.rxLen.toNat % 256) ∧
      (off.toNat = 0x305 → v.toNat = s.rxLen.toNat / 256) ∧
      (off.toNat = 0x306 → v.toNat = s.txLen.toNat % 256) ∧
      (off.toNat = 0x307 → v.toNat = s.txLen.toNat / 256) ∧
      (off.toNat = 0x308 → v.toNat = s.msgType.toNat) ∧
      (off.toNat = 0x309 → v = s.msgFid) ∧
      (off.toNat = 0x30A → v = s.msgPlen) ∧
      (off.toNat = 0x30B → v.toNat = s.valid.toNat + 2 * s.ppres.toNat) ∧
      (off.toNat = 0x30C → v = s.msgCs) ∧
      (off.toNat = 0x30D → v = s.chk) ∧
      (off.toNat = 0x30E → v = match s.rxKind with | .none => 0 | .envelope => 1 | .ack => 2 | .nack => 3) ∧
      (0x30F ≤ off.toNat → v = 0)

/-- R207: `CMD` reads 0x00 at all times. -/
def Obligations.CmdReadsZero : Prop :=
  ∀ (s : State) rest, s.cfg.wf = true → s.inputs = .host (.rd (busAddr s.cfg 0x300)) :: rest →
    step s = .next { s with inputs := rest, readLog := 0 :: s.readLog }

/-- R206 along a run: a command byte `v` is accepted, then any accesses to the window follow, then a read at `off` while the
command is still in flight. In the write set the read returns the byte held at acceptance or the byte the completion will
write; `BUSY` and `DONE` are exact and `RESULT` is old or new; any other location returns what is stored just before the read.
The last clause is the exactness of every read while no command is in flight. -/
def Obligations.ReadHazard : Prop :=
  (∀ (s : State) (v : Byte) (ops : List HostOp) (off : Offset) rest,
    s.cfg.wf = true → s.busy = false → s.err.toNat ≤ 10 → (∀ op ∈ ops, opInWindow s.cfg op) →
    s.inputs = .host (.wr (busAddr s.cfg 0x300) v) :: (ops.map .host ++ .host (.rd (busAddr s.cfg off)) :: rest) →
    ∃ r t u x, core.run (ops.length + 1) s = .next r ∧ core.run (ops.length + 2) s = .next t ∧
      complete { s with op := v, busy := true, done := false } = .next u ∧ t.readLog = x :: r.readLog ∧
      (off = 0x301 → x.getLsbD 0 = true ∧ x.getLsbD 1 = false ∧ (x.getLsbD 2 = s.result ∨ x.getLsbD 2 = u.result) ∧
        x.getLsbD 3 = r.hz ∧ x.toNat < 16) ∧
      (off ≠ 0x301 → writeSetOffset v off.toNat → x = s.locByte (locate off) ∨ x = u.locByte (locate off)) ∧
      (off ≠ 0x301 → ¬writeSetOffset v off.toNat → x = r.locByte (locate off))) ∧
  (∀ (s : State) (off : Offset) rest, s.cfg.wf = true → s.busy = false → s.err.toNat ≤ 10 →
    s.inputs = .host (.rd (busAddr s.cfg off)) :: rest →
    step s = .next { s with inputs := rest, readLog := s.locByte (locate off) :: s.readLog })

/-- R211, R69: the next `STATUS` read after an accepted `CMD` write shows `BUSY = 1` and `DONE = 0`, or, if the completion has
come, `BUSY = 0` and `DONE = 1`. -/
def Obligations.StatusPollIsExact : Prop :=
  ∀ (s : State) (v : Byte) rest, s.cfg.wf = true → s.busy = false →
    (s.inputs = .host (.wr (busAddr s.cfg 0x300) v) :: .host (.rd (busAddr s.cfg 0x301)) :: rest →
      ∃ t x, core.run 2 s = .next t ∧ t.readLog = x :: s.readLog ∧ x.getLsbD 0 = true ∧ x.getLsbD 1 = false) ∧
    (s.inputs = .host (.wr (busAddr s.cfg 0x300) v) :: .engine :: .host (.rd (busAddr s.cfg 0x301)) :: rest →
      ∃ t x, core.run 3 s = .next t ∧ t.readLog = x :: s.readLog ∧ x.getLsbD 0 = false ∧ x.getLsbD 1 = true)

/-! ## The checksum commands -/

/-- 40_checksum.md R101: the four laws of the checksum function. -/
def Obligations.ChecksumLaws : Prop :=
  (∀ (B : Nat → Byte) a, ck B a a = 0xFF) ∧
  (∀ (B : Nat → Byte) a, ck B a (a + 1) = B a ^^^ 0xFF) ∧
  (∀ (F : Nat → Byte) n, 2 ≤ n → F (n - 1) = ck F 1 (n - 1) → ck F 1 n = 0 ∧ ck F 0 n = F 0) ∧
  (∀ (B : Nat → Byte) a b c, a ≤ b → b ≤ c → ck B a b ^^^ ck B b c ^^^ 0xFF = ck B a c)

/-- R102, R104: `CALC`, for every `RX_LEN`. -/
def Obligations.CalcResult : Prop :=
  decodeByte 0x10 = .ok .calcSum ∧
  ∀ s : State,
    (s.rxLen.toNat ≤ 256 → exec .calcSum s =
      .next { s with chk := ck s.rx 0 s.rxLen.toNat, err := 0, result := true, busy := false, done := true }) ∧
    (256 < s.rxLen.toNat → exec .calcSum s =
      .next { s with err := 6, result := false, busy := false, done := true })

/-- R103, R104: `CHECK`, for every `RX_LEN`. -/
def Obligations.CheckResult : Prop :=
  decodeByte 0x20 = .ok .check ∧
  ∀ s : State,
    (256 < s.rxLen.toNat → exec .check s =
      .next { s with err := 6, result := false, busy := false, done := true }) ∧
    (s.rxLen.toNat < 5 → exec .check s =
      .next { s with err := 1, result := false, busy := false, done := true }) ∧
    (5 ≤ s.rxLen.toNat → s.rxLen.toNat ≤ 256 → ∃ r : Bool,
      (r = true ↔ ck s.rx 1 (s.rxLen.toNat - 1) = s.rx (s.rxLen.toNat - 1)) ∧
      exec .check s =
        .next { s with chk := ck s.rx 1 (s.rxLen.toNat - 1), err := 0, result := r, busy := false, done := true })

/-! ## The decode commands -/

/-- 41_decode.md R127, R128: `DECODE` of a valid envelope. -/
def Obligations.DecodeValidEnvelope : Prop :=
  ∀ (s : State) (n : Nat), s.rxLen.toNat = n → 5 ≤ n → n ≤ 256 → s.rx 0 = s.cfg.start → (s.rx 1).toNat = n - 2 →
    ck s.rx 1 (n - 1) = s.rx (n - 1) → (s.rx 2 = 0x00 ∨ s.rx 2 = 0x01) →
    ∃ t, exec .decode s = .next t ∧
      t = { s with
        mem := t.mem, msgType := BitVec.ofNat 1 (s.rx 2).toNat, msgFid := s.rx 3, msgPlen := BitVec.ofNat 8 (n - 5),
        msgCs := s.rx (n - 1), valid := true, ppres := decide (0 < n - 5), rxKind := .envelope,
        chk := ck s.rx 1 (n - 1), err := 0, result := true, busy := false, done := true } ∧
      t.msgPlen.toNat = n - 5 ∧
      (∀ j, j < n - 5 → t.pay j = s.rx (4 + j)) ∧
      (∀ a, a < 0x200 ∨ 0x200 + (n - 5) ≤ a → t.byteAt a = s.byteAt a)

/-- R121 to R126, R130: the failing checks of `DECODE`, in their order, and all a failing `DECODE` changes. -/
def Obligations.DecodeFailures : Prop :=
  ∀ (s : State) (n : Nat), s.rxLen.toNat = n →
    (n < 5 → exec .decode s =
      .next { s with rxKind := .none, err := 1, result := false, busy := false, done := true }) ∧
    (5 ≤ n → s.rx 0 ≠ s.cfg.start → exec .decode s =
      .next { s with rxKind := .none, err := 2, result := false, busy := false, done := true }) ∧
    (5 ≤ n → s.rx 0 = s.cfg.start → (s.rx 1).toNat ≠ n - 2 → exec .decode s =
      .next { s with rxKind := .none, err := 3, result := false, busy := false, done := true }) ∧
    (258 ≤ n → (s.rx 1).toNat ≠ n - 2) ∧
    (256 < n → s.rx 0 = s.cfg.start → (s.rx 1).toNat = n - 2 → n = 257 ∧ exec .decode s =
      .next { s with rxKind := .none, err := 6, result := false, busy := false, done := true }) ∧
    (5 ≤ n → n ≤ 256 → s.rx 0 = s.cfg.start → (s.rx 1).toNat = n - 2 → ck s.rx 1 (n - 1) ≠ s.rx (n - 1) →
      exec .decode s =
        .next { s with
          rxKind := .none, chk := ck s.rx 1 (n - 1), err := 4, result := false, busy := false, done := true }) ∧
    (5 ≤ n → n ≤ 256 → s.rx 0 = s.cfg.start → (s.rx 1).toNat = n - 2 → ck s.rx 1 (n - 1) = s.rx (n - 1) →
      s.rx 2 ≠ 0x00 → s.rx 2 ≠ 0x01 →
      exec .decode s =
        .next { s with
          rxKind := .none, chk := ck s.rx 1 (n - 1), err := 5, result := false, busy := false, done := true })

/-- R131: `DECODE` reads only `RX[0 .. min(RX_LEN, 256))`. Two states that agree on those bytes and on every register finish
with the same registers, and, where a message was decoded, with the same payload bytes. -/
def Obligations.DecodeReadsFrameOnly : Prop :=
  ∀ (s : State) (m : Memory),
    (∀ i, i < min s.rxLen.toNat 256 → ({ s with mem := m } : State).rx i = s.rx i) →
    ∃ t u, exec .decode s = .next t ∧ exec .decode { s with mem := m } = .next u ∧ u = { t with mem := u.mem } ∧
      (t.result = true → ∀ j, j < t.msgPlen.toNat → u.pay j = t.pay j)

/-- R135, R136, R137: `RECV` recognises a one-byte control frame, and is `DECODE` on everything else. -/
def Obligations.RecvResult : Prop :=
  decodeByte 0x60 = .ok .recv ∧
  ∀ s : State,
    (s.rxLen.toNat = 1 → s.rx 0 = s.cfg.ack → exec .recv s =
      .next { s with rxKind := .ack, err := 0, result := true, busy := false, done := true }) ∧
    (s.rxLen.toNat = 1 → s.rx 0 ≠ s.cfg.ack → s.rx 0 = s.cfg.nack → exec .recv s =
      .next { s with rxKind := .nack, err := 0, result := true, busy := false, done := true }) ∧
    (¬(s.rxLen.toNat = 1 ∧ (s.rx 0 = s.cfg.ack ∨ s.rx 0 = s.cfg.nack)) → exec .recv s = exec .decode s)

/-! ## The encode commands -/

/-- 42_encode.md R155, R156: `ENCODE` of a consistent message. The checksum is over the bytes it wrote. -/
def Obligations.EncodeValidMessage : Prop :=
  ∀ (s : State) (L : Nat), s.msgPlen.toNat = L → s.valid = true → s.ppres = decide (0 < L) → L ≤ 251 →
    ∃ t, exec .encode s = .next t ∧
      t = { s with
        mem := t.mem, txLen := BitVec.ofNat 9 (L + 5), chk := ck t.tx 1 (L + 4), err := 0, result := true, busy := false,
        done := true } ∧
      t.txLen.toNat = L + 5 ∧
      t.tx 0 = s.cfg.start ∧ (t.tx 1).toNat = L + 3 ∧ (t.tx 2).toNat = s.msgType.toNat ∧ t.tx 3 = s.msgFid ∧
      (∀ j, j < L → t.tx (4 + j) = s.pay j) ∧ t.tx (L + 4) = ck t.tx 1 (L + 4) ∧
      (∀ a, a < 0x100 ∨ 0x100 + (L + 5) ≤ a → t.byteAt a = s.byteAt a)

/-- R151 to R154, R158: the failing checks of `ENCODE`, in their order; a failing `ENCODE` writes nothing but its `finish`. -/
def Obligations.EncodeFailures : Prop :=
  ∀ (s : State) (L : Nat), s.msgPlen.toNat = L →
    (s.valid = false → exec .encode s =
      .next { s with err := 7, result := false, busy := false, done := true }) ∧
    (s.valid = true → s.ppres = false → 0 < L → exec .encode s =
      .next { s with err := 8, result := false, busy := false, done := true }) ∧
    (s.valid = true → s.ppres = true → L = 0 → exec .encode s =
      .next { s with err := 8, result := false, busy := false, done := true }) ∧
    (s.valid = true → s.ppres = true → 251 < L → exec .encode s =
      .next { s with err := 9, result := false, busy := false, done := true })

/-- R157: `ENCODE` writes no message register and no `PAY` byte, and what it does is independent of `MSG_CS`. -/
def Obligations.EncodeLeavesMessageIntact : Prop :=
  ∀ (s : State) (v : Byte), ∃ t, exec .encode s = .next t ∧
    exec .encode { s with msgCs := v } = .next { t with msgCs := v } ∧
    t.msgType = s.msgType ∧ t.msgFid = s.msgFid ∧ t.msgPlen = s.msgPlen ∧ t.valid = s.valid ∧ t.ppres = s.ppres ∧
    t.msgCs = s.msgCs ∧ ∀ j, j < 256 → t.pay j = s.pay j

/-- R160, R161: the one-byte control frames. -/
def Obligations.ControlFrames : Prop :=
  decodeByte 0x50 = .ok .ctrlAck ∧ decodeByte 0x51 = .ok .ctrlNack ∧
  ∀ s : State,
    (∃ t, exec .ctrlAck s = .next t ∧
      t = { s with mem := t.mem, txLen := 1, err := 0, result := true, busy := false, done := true } ∧
      ∀ a, t.byteAt a = if a = 0x100 then s.cfg.ack else s.byteAt a) ∧
    (∃ t, exec .ctrlNack s = .next t ∧
      t = { s with mem := t.mem, txLen := 1, err := 0, result := true, busy := false, done := true } ∧
      ∀ a, t.byteAt a = if a = 0x100 then s.cfg.nack else s.byteAt a)

/-- R89, R162: every frame `ENCODE` emits has the envelope wire format, and is no control frame. -/
def Obligations.EncodedFrameHasWireFormat : Prop :=
  ∀ s t : State, exec .encode s = .next t → t.result = true →
    5 ≤ t.txLen.toNat ∧ t.txLen.toNat ≤ 256 ∧ t.tx 0 = s.cfg.start ∧ (t.tx 1).toNat = t.txLen.toNat - 2 ∧
    (t.tx 2 = 0x00 ∨ t.tx 2 = 0x01) ∧ t.tx (t.txLen.toNat - 1) = ck t.tx 1 (t.txLen.toNat - 1)

/-- R159: the round trip. Encode a message, put the frame in `RX` of any state of the same configuration, decode: the message
comes back, with the emitted checksum. -/
def Obligations.EncodeThenDecodeRoundTrip : Prop :=
  ∀ (s : State) (L : Nat), s.msgPlen.toNat = L → L ≤ 251 → s.valid = true → s.ppres = decide (L ≠ 0) →
    ∃ t, exec .encode s = .next t ∧
      ∀ r : State, r.cfg = s.cfg → r.rxLen = t.txLen → (∀ k, k < t.txLen.toNat → r.rx k = t.tx k) →
        ∃ u, exec .decode r = .next u ∧ u.err = 0 ∧ u.result = true ∧ u.rxKind = .envelope ∧ u.msgType = s.msgType ∧
          u.msgFid = s.msgFid ∧ u.msgPlen = s.msgPlen ∧ u.ppres = s.ppres ∧ u.valid = true ∧
          (∀ j, j < L → u.pay j = s.pay j) ∧ u.msgCs = t.tx (L + 4)

/-- R128, R155: the other way round. A message that `DECODE` produced is accepted by `ENCODE`, which emits the very frame. -/
def Obligations.DecodeThenEncodeRoundTrip : Prop :=
  ∀ s t : State, exec .decode s = .next t → t.result = true →
    ∃ u, exec .encode t = .next u ∧ u.err = 0 ∧ u.result = true ∧ u.txLen = s.rxLen ∧
      ∀ k, k < s.rxLen.toNat → u.tx k = s.rx k

/-! ## What no command changes -/

/-- 20_memory.md R75: no command writes `RX` or `RX_LEN`, and a later host write to `RX` does not change a decoded message. -/
def Obligations.NoCommandWritesReceiveBuffer : Prop :=
  (∀ s t : State, complete s = .next t → t.rxLen = s.rxLen ∧ ∀ k, k < 256 → t.rx k = s.rx k) ∧
  (∀ (s : State) (off : Offset) (v : Byte) rest, s.cfg.wf = true → s.busy = false → off.toNat < 0x100 →
    s.inputs = .host (.wr (busAddr s.cfg off) v) :: rest →
    ∃ t, step s = .next t ∧ t.msgType = s.msgType ∧ t.msgFid = s.msgFid ∧ t.msgPlen = s.msgPlen ∧ t.valid = s.valid ∧
      t.ppres = s.ppres ∧ t.msgCs = s.msgCs ∧ ∀ j, j < 256 → t.pay j = s.pay j)

/-- 30_encoding.md R94: a completion changes what the host reads only at the offsets of its command's write set and in
`STATUS`. -/
def Obligations.CompletionStaysInWriteSet : Prop :=
  ∀ (s t : State) (off : Offset), complete s = .next t → off ≠ 0x301 → ¬writeSetOffset s.op off.toNat →
    t.locByte (locate off) = s.locByte (locate off)

/-- 10_state.md R42: no command reads or writes `PAY[252..256)`. Other bytes there change nothing a command does. -/
def Obligations.PayloadTailIsPlainStorage : Prop :=
  ∀ (s : State) (m : Memory),
    (∀ a, a < 0x200 + 252 → ({ s with mem := m } : State).byteAt a = s.byteAt a) →
    ∃ t u, complete s = .next t ∧ complete { s with mem := m } = .next u ∧ u = { t with mem := u.mem } ∧
      (∀ a, a < 0x200 + 252 → u.byteAt a = t.byteAt a) ∧
      (∀ j, 252 ≤ j → j < 256 → t.pay j = s.pay j)

/-- R25, R28, R34, R35: the completion registers change at a completion or at a reset only, and `RX_KIND` at a completion only
if the command is `DECODE` or `RECV`. -/
def Obligations.OutputsChangeAtCompletionOnly : Prop :=
  ∀ s t : State, step s = .next t →
    (s.busy = false ∨ ∃ op rest, s.inputs = .host op :: rest) → (∀ rest, s.inputs ≠ .reset :: rest) →
    t.err = s.err ∧ t.result = s.result ∧ t.txLen = s.txLen ∧ t.chk = s.chk ∧ t.rxKind = s.rxKind

/-- R24, R26, R92, R93: what changes `HZ`, `DONE`, `BUSY` and `IE` apart from a reset. `HZ` is sticky: only writing 1 to it
clears it, and only an ignored write sets it. `DONE` is set by a completion only, and cleared by writing 1 to it or by an
accepted command only. `BUSY` is set by an accepted command only, and cleared by a completion only. `IE` follows `CTRL`. -/
def Obligations.FlagsChangeOnlyAsRuled : Prop :=
  ∀ s t : State, step s = .next t → (∀ rest, s.inputs ≠ .reset :: rest) →
    (s.hz = true → t.hz = false →
      ∃ v rest, s.inputs = .host (.wr (busAddr s.cfg 0x301) v) :: rest ∧ v.getLsbD 3 = true) ∧
    (s.hz = false → t.hz = true → s.busy = true ∧
      ∃ off v rest, s.inputs = .host (.wr (busAddr s.cfg off) v) :: rest ∧
        (off.toNat ≤ 0x300 ∨ off.toNat = 0x304 ∨ off.toNat = 0x305 ∨ (0x308 ≤ off.toNat ∧ off.toNat ≤ 0x30C))) ∧
    (s.done = true → t.done = false →
      (∃ v rest, s.inputs = .host (.wr (busAddr s.cfg 0x301) v) :: rest ∧ v.getLsbD 1 = true) ∨
      (s.busy = false ∧ ∃ v rest, s.inputs = .host (.wr (busAddr s.cfg 0x300) v) :: rest)) ∧
    (s.done = false → t.done = true → s.busy = true ∧ t.busy = false) ∧
    (s.busy = false → t.busy = true → ∃ v rest, s.inputs = .host (.wr (busAddr s.cfg 0x300) v) :: rest ∧ t.op = v) ∧
    (s.busy = true → t.busy = false → t.done = true) ∧
    (t.ie ≠ s.ie → ∃ v rest, s.inputs = .host (.wr (busAddr s.cfg 0x303) v) :: rest ∧ t.ie = v.getLsbD 0)

/-- R35: only `DECODE` and `RECV` write `RX_KIND`. -/
def Obligations.OnlyDecodingWritesRxKind : Prop :=
  ∀ s t : State, complete s = .next t → s.op ≠ 0x30 → s.op ≠ 0x60 → t.rxKind = s.rxKind

/-- R45: nothing changes the configuration, and no location of the window shows it. -/
def Obligations.ConfigurationIsFixed : Prop :=
  (∀ s t : State, step s = .next t → t.cfg = s.cfg) ∧
  (∀ (s : State) (c : Config) (l : Loc), ({ s with cfg := c } : State).locByte l = s.locByte l)

/-! ## Single flight -/

/-- R93, R205: a command in flight is unaffected by anything the host does to the window before it completes. Whatever
accesses stand before the engine's turn, the run ends in the state the completion would have left at once, apart from what
those accesses themselves leave: `HZ`, `IE`, the host's log and the draws. -/
def Obligations.CommandInFlightIsIsolated : Prop :=
  ∀ (s : State) (ops : List HostOp) rest, s.cfg.wf = true → s.busy = true → s.err.toNat ≤ 10 →
    (∀ op ∈ ops, opInWindow s.cfg op) → s.inputs = ops.map .host ++ .engine :: rest →
    ∃ t u, core.run (ops.length + 1) s = .next t ∧ complete s = .next u ∧
      t = { u with inputs := rest, hz := t.hz, ie := t.ie, draws := t.draws, readLog := t.readLog }

/-! ## Interrupt -/

/-- R38, R177: the interrupt output, and what raises and clears it. -/
def Obligations.InterruptFollowsDone : Prop :=
  (∀ s : State, s.irq = (s.ie && s.done)) ∧
  (∀ s t : State, complete s = .next t → t.irq = s.ie) ∧
  (∀ (s t : State) rest, step s = .next t → s.inputs = .reset :: rest → t.irq = false) ∧
  (∀ (s : State) (v : Byte) rest, s.cfg.wf = true → s.busy = false →
    s.inputs = .host (.wr (busAddr s.cfg 0x300) v) :: rest → ∃ t, step s = .next t ∧ t.irq = false) ∧
  (∀ (s : State) (v : Byte) rest, s.cfg.wf = true → v.getLsbD 1 = true →
    s.inputs = .host (.wr (busAddr s.cfg 0x301) v) :: rest → ∃ t, step s = .next t ∧ t.irq = false) ∧
  (∀ (s : State) (v : Byte) rest, s.cfg.wf = true → v.getLsbD 0 = true →
    s.inputs = .host (.wr (busAddr s.cfg 0x303) v) :: rest → ∃ t, step s = .next t ∧ t.irq = s.done)

/-! ## Reset and configuration -/

/-- 10_state.md R43: the reset value of every register field. -/
def Obligations.ResetStateValues : Prop := atResetValues State.reset

/-- R200, R201: a reset event is always taken, whatever is in flight: no completion follows, every register field takes its
reset value and the configuration stays. Every buffer byte is again the free value of the new epoch: for R44's "unspecified"
that form is the model's choice (log 5). -/
def Obligations.ResetEventAbandonsAndResets : Prop :=
  ∀ (s : State) rest, s.cfg.wf = true → s.inputs = .reset :: rest →
    ∃ t, step s = .next t ∧ atResetValues t ∧ t.cfg = s.cfg ∧ t.inputs = rest ∧ t.readLog = s.readLog ∧
      ∀ a, t.byteAt a = Config.resetByte (s.epoch + 1) a

/-- R44: a buffer byte that nothing has written since reset holds one value, whatever it is: two reads return the same byte.
(That it is a free value and not some number is log 5.) -/
def Obligations.UnwrittenByteIsStable : Prop :=
  ∀ (s : State) (off : Offset) rest, s.cfg.wf = true → off.toNat < 0x300 →
    s.inputs = .reset :: .host (.rd (busAddr s.cfg off)) :: .host (.rd (busAddr s.cfg off)) :: rest →
    ∃ t x, core.run 3 s = .next t ∧ t.readLog = x :: x :: s.readLog

/-- 00_scope.md R6: a configuration whose three bytes are not pairwise distinct is refused, and no other is. That the refusal
falls at every step is the model's choice (log 4). -/
def Obligations.BadConfigurationRefused : Prop :=
  ∀ s : State,
    ((s.cfg.start = s.cfg.ack ∨ s.cfg.start = s.cfg.nack ∨ s.cfg.ack = s.cfg.nack) →
      step s = .refused .badConfiguration) ∧
    (s.cfg.start ≠ s.cfg.ack → s.cfg.start ≠ s.cfg.nack → s.cfg.ack ≠ s.cfg.nack →
      ∀ why, step s ≠ .refused why)

/-- Log 3 (the model's choice, on 20_memory.md R60): a bus address outside the window is no access to this engine, and the
model stops. -/
def Obligations.AccessOutsideWindowFaults : Prop :=
  ∀ (s : State) (addr : Nat) rest, s.cfg.wf = true → (addr < s.cfg.base ∨ s.cfg.base + 0x1000 ≤ addr) →
    (s.inputs = .host (.rd addr) :: rest ∨ ∃ v, s.inputs = .host (.wr addr v) :: rest) →
    step s = .fault .outsideWindow

/-- Log 10 (on 60_exceptions.md R171 and 93 U5): a host read of `ERR` holding a code no command produces stops the model. -/
def Obligations.ReservedErrCodeFaults : Prop :=
  ∀ (s : State) rest, s.cfg.wf = true → 11 ≤ s.err.toNat →
    s.inputs = .host (.rd (busAddr s.cfg 0x302)) :: rest → step s = .fault .reservedErrCode

/-! ## Invariants -/

/-- The invariant holds at reset. -/
def Obligations.ResetMeetsInvariant : Prop := Inv State.reset

/-- R6, R24, R28, R91, R171: every step keeps the invariant, from every state that meets it. -/
def Obligations.EveryStepKeepsInvariant : Prop :=
  ∀ s t : State, Inv s → step s = .next t → Inv t

/-- R170: from a good state whose pending accesses are accesses to the window, every run is safe, whatever the host does and
however many steps it takes: no fault, no refusal. -/
def Obligations.EveryRunIsSafe : Prop :=
  ∀ (n : Nat) (s : State), Inv s → inputsInWindow s → SafeRun n s

/-- R87: the host-op words of a program's lines (bit 23 direction, bits 22:20 zero, bits 19:8 offset, bits 7:0 data). -/
def Obligations.HostOpWords : Prop :=
  (∀ (off : Offset) (v : Byte), (Line.wr off v).word.toNat = 0x800000 + off.toNat * 256 + v.toNat) ∧
  (∀ off : Offset, (Line.rd off).word.toNat = off.toNat * 256)
end

