-- ==== Sys2Proof/Laws/State.lean ====
section
/-! SUPPORT. The fields of the state after each named update: one lemma a field, true by `rfl`. -/

namespace Sys2Proof.Machine

variable (s : State)

/-! ## store -/

@[simp] theorem State.store_cfg (a : Nat) (v : Byte) : (s.store a v).cfg = s.cfg := rfl
@[simp] theorem State.store_mem (a : Nat) (v : Byte) : (s.store a v).mem = s.mem.write a v := rfl
@[simp] theorem State.store_op (a : Nat) (v : Byte) : (s.store a v).op = s.op := rfl
@[simp] theorem State.store_busy (a : Nat) (v : Byte) : (s.store a v).busy = s.busy := rfl
@[simp] theorem State.store_done (a : Nat) (v : Byte) : (s.store a v).done = s.done := rfl
@[simp] theorem State.store_result (a : Nat) (v : Byte) : (s.store a v).result = s.result := rfl
@[simp] theorem State.store_hz (a : Nat) (v : Byte) : (s.store a v).hz = s.hz := rfl
@[simp] theorem State.store_err (a : Nat) (v : Byte) : (s.store a v).err = s.err := rfl
@[simp] theorem State.store_ie (a : Nat) (v : Byte) : (s.store a v).ie = s.ie := rfl
@[simp] theorem State.store_rxLen (a : Nat) (v : Byte) : (s.store a v).rxLen = s.rxLen := rfl
@[simp] theorem State.store_txLen (a : Nat) (v : Byte) : (s.store a v).txLen = s.txLen := rfl
@[simp] theorem State.store_msgType (a : Nat) (v : Byte) : (s.store a v).msgType = s.msgType := rfl
@[simp] theorem State.store_msgFid (a : Nat) (v : Byte) : (s.store a v).msgFid = s.msgFid := rfl
@[simp] theorem State.store_msgPlen (a : Nat) (v : Byte) : (s.store a v).msgPlen = s.msgPlen := rfl
@[simp] theorem State.store_valid (a : Nat) (v : Byte) : (s.store a v).valid = s.valid := rfl
@[simp] theorem State.store_ppres (a : Nat) (v : Byte) : (s.store a v).ppres = s.ppres := rfl
@[simp] theorem State.store_msgCs (a : Nat) (v : Byte) : (s.store a v).msgCs = s.msgCs := rfl
@[simp] theorem State.store_chk (a : Nat) (v : Byte) : (s.store a v).chk = s.chk := rfl
@[simp] theorem State.store_rxKind (a : Nat) (v : Byte) : (s.store a v).rxKind = s.rxKind := rfl
@[simp] theorem State.store_epoch (a : Nat) (v : Byte) : (s.store a v).epoch = s.epoch := rfl
@[simp] theorem State.store_draws (a : Nat) (v : Byte) : (s.store a v).draws = s.draws := rfl
@[simp] theorem State.store_inputs (a : Nat) (v : Byte) : (s.store a v).inputs = s.inputs := rfl
@[simp] theorem State.store_readLog (a : Nat) (v : Byte) : (s.store a v).readLog = s.readLog := rfl

/-! ## finish -/

@[simp] theorem State.finish_cfg (c : Code) (r : Bool) : (s.finish c r).cfg = s.cfg := rfl
@[simp] theorem State.finish_mem (c : Code) (r : Bool) : (s.finish c r).mem = s.mem := rfl
@[simp] theorem State.finish_op (c : Code) (r : Bool) : (s.finish c r).op = s.op := rfl
@[simp] theorem State.finish_busy (c : Code) (r : Bool) : (s.finish c r).busy = false := rfl
@[simp] theorem State.finish_done (c : Code) (r : Bool) : (s.finish c r).done = true := rfl
@[simp] theorem State.finish_result (c : Code) (r : Bool) : (s.finish c r).result = r := rfl
@[simp] theorem State.finish_hz (c : Code) (r : Bool) : (s.finish c r).hz = s.hz := rfl
@[simp] theorem State.finish_err (c : Code) (r : Bool) : (s.finish c r).err = c.bits := rfl
@[simp] theorem State.finish_ie (c : Code) (r : Bool) : (s.finish c r).ie = s.ie := rfl
@[simp] theorem State.finish_rxLen (c : Code) (r : Bool) : (s.finish c r).rxLen = s.rxLen := rfl
@[simp] theorem State.finish_txLen (c : Code) (r : Bool) : (s.finish c r).txLen = s.txLen := rfl
@[simp] theorem State.finish_msgType (c : Code) (r : Bool) : (s.finish c r).msgType = s.msgType := rfl
@[simp] theorem State.finish_msgFid (c : Code) (r : Bool) : (s.finish c r).msgFid = s.msgFid := rfl
@[simp] theorem State.finish_msgPlen (c : Code) (r : Bool) : (s.finish c r).msgPlen = s.msgPlen := rfl
@[simp] theorem State.finish_valid (c : Code) (r : Bool) : (s.finish c r).valid = s.valid := rfl
@[simp] theorem State.finish_ppres (c : Code) (r : Bool) : (s.finish c r).ppres = s.ppres := rfl
@[simp] theorem State.finish_msgCs (c : Code) (r : Bool) : (s.finish c r).msgCs = s.msgCs := rfl
@[simp] theorem State.finish_chk (c : Code) (r : Bool) : (s.finish c r).chk = s.chk := rfl
@[simp] theorem State.finish_rxKind (c : Code) (r : Bool) : (s.finish c r).rxKind = s.rxKind := rfl
@[simp] theorem State.finish_epoch (c : Code) (r : Bool) : (s.finish c r).epoch = s.epoch := rfl
@[simp] theorem State.finish_draws (c : Code) (r : Bool) : (s.finish c r).draws = s.draws := rfl
@[simp] theorem State.finish_inputs (c : Code) (r : Bool) : (s.finish c r).inputs = s.inputs := rfl
@[simp] theorem State.finish_readLog (c : Code) (r : Bool) : (s.finish c r).readLog = s.readLog := rfl

/-! ## accept -/

@[simp] theorem State.accept_cfg (v : Byte) : (s.accept v).cfg = s.cfg := rfl
@[simp] theorem State.accept_mem (v : Byte) : (s.accept v).mem = s.mem := rfl
@[simp] theorem State.accept_op (v : Byte) : (s.accept v).op = v := rfl
@[simp] theorem State.accept_busy (v : Byte) : (s.accept v).busy = true := rfl
@[simp] theorem State.accept_done (v : Byte) : (s.accept v).done = false := rfl
@[simp] theorem State.accept_result (v : Byte) : (s.accept v).result = s.result := rfl
@[simp] theorem State.accept_hz (v : Byte) : (s.accept v).hz = s.hz := rfl
@[simp] theorem State.accept_err (v : Byte) : (s.accept v).err = s.err := rfl
@[simp] theorem State.accept_ie (v : Byte) : (s.accept v).ie = s.ie := rfl
@[simp] theorem State.accept_rxLen (v : Byte) : (s.accept v).rxLen = s.rxLen := rfl
@[simp] theorem State.accept_txLen (v : Byte) : (s.accept v).txLen = s.txLen := rfl
@[simp] theorem State.accept_msgType (v : Byte) : (s.accept v).msgType = s.msgType := rfl
@[simp] theorem State.accept_msgFid (v : Byte) : (s.accept v).msgFid = s.msgFid := rfl
@[simp] theorem State.accept_msgPlen (v : Byte) : (s.accept v).msgPlen = s.msgPlen := rfl
@[simp] theorem State.accept_valid (v : Byte) : (s.accept v).valid = s.valid := rfl
@[simp] theorem State.accept_ppres (v : Byte) : (s.accept v).ppres = s.ppres := rfl
@[simp] theorem State.accept_msgCs (v : Byte) : (s.accept v).msgCs = s.msgCs := rfl
@[simp] theorem State.accept_chk (v : Byte) : (s.accept v).chk = s.chk := rfl
@[simp] theorem State.accept_rxKind (v : Byte) : (s.accept v).rxKind = s.rxKind := rfl
@[simp] theorem State.accept_epoch (v : Byte) : (s.accept v).epoch = s.epoch := rfl
@[simp] theorem State.accept_draws (v : Byte) : (s.accept v).draws = s.draws := rfl
@[simp] theorem State.accept_inputs (v : Byte) : (s.accept v).inputs = s.inputs := rfl
@[simp] theorem State.accept_readLog (v : Byte) : (s.accept v).readLog = s.readLog := rfl

/-! ## flagHazard -/

@[simp] theorem State.flagHazard_cfg : s.flagHazard.cfg = s.cfg := rfl
@[simp] theorem State.flagHazard_mem : s.flagHazard.mem = s.mem := rfl
@[simp] theorem State.flagHazard_op : s.flagHazard.op = s.op := rfl
@[simp] theorem State.flagHazard_busy : s.flagHazard.busy = s.busy := rfl
@[simp] theorem State.flagHazard_done : s.flagHazard.done = s.done := rfl
@[simp] theorem State.flagHazard_result : s.flagHazard.result = s.result := rfl
@[simp] theorem State.flagHazard_hz : s.flagHazard.hz = true := rfl
@[simp] theorem State.flagHazard_err : s.flagHazard.err = s.err := rfl
@[simp] theorem State.flagHazard_ie : s.flagHazard.ie = s.ie := rfl
@[simp] theorem State.flagHazard_rxLen : s.flagHazard.rxLen = s.rxLen := rfl
@[simp] theorem State.flagHazard_txLen : s.flagHazard.txLen = s.txLen := rfl
@[simp] theorem State.flagHazard_msgType : s.flagHazard.msgType = s.msgType := rfl
@[simp] theorem State.flagHazard_msgFid : s.flagHazard.msgFid = s.msgFid := rfl
@[simp] theorem State.flagHazard_msgPlen : s.flagHazard.msgPlen = s.msgPlen := rfl
@[simp] theorem State.flagHazard_valid : s.flagHazard.valid = s.valid := rfl
@[simp] theorem State.flagHazard_ppres : s.flagHazard.ppres = s.ppres := rfl
@[simp] theorem State.flagHazard_msgCs : s.flagHazard.msgCs = s.msgCs := rfl
@[simp] theorem State.flagHazard_chk : s.flagHazard.chk = s.chk := rfl
@[simp] theorem State.flagHazard_rxKind : s.flagHazard.rxKind = s.rxKind := rfl
@[simp] theorem State.flagHazard_epoch : s.flagHazard.epoch = s.epoch := rfl
@[simp] theorem State.flagHazard_draws : s.flagHazard.draws = s.draws := rfl
@[simp] theorem State.flagHazard_inputs : s.flagHazard.inputs = s.inputs := rfl
@[simp] theorem State.flagHazard_readLog : s.flagHazard.readLog = s.readLog := rfl

/-! ## writeStatus -/

@[simp] theorem State.writeStatus_cfg (v : Byte) : (s.writeStatus v).cfg = s.cfg := rfl
@[simp] theorem State.writeStatus_mem (v : Byte) : (s.writeStatus v).mem = s.mem := rfl
@[simp] theorem State.writeStatus_op (v : Byte) : (s.writeStatus v).op = s.op := rfl
@[simp] theorem State.writeStatus_busy (v : Byte) : (s.writeStatus v).busy = s.busy := rfl
@[simp] theorem State.writeStatus_done (v : Byte) : (s.writeStatus v).done = (s.done && !v.getLsbD 1) := rfl
@[simp] theorem State.writeStatus_result (v : Byte) : (s.writeStatus v).result = s.result := rfl
@[simp] theorem State.writeStatus_hz (v : Byte) : (s.writeStatus v).hz = (s.hz && !v.getLsbD 3) := rfl
@[simp] theorem State.writeStatus_err (v : Byte) : (s.writeStatus v).err = s.err := rfl
@[simp] theorem State.writeStatus_ie (v : Byte) : (s.writeStatus v).ie = s.ie := rfl
@[simp] theorem State.writeStatus_rxLen (v : Byte) : (s.writeStatus v).rxLen = s.rxLen := rfl
@[simp] theorem State.writeStatus_txLen (v : Byte) : (s.writeStatus v).txLen = s.txLen := rfl
@[simp] theorem State.writeStatus_msgType (v : Byte) : (s.writeStatus v).msgType = s.msgType := rfl
@[simp] theorem State.writeStatus_msgFid (v : Byte) : (s.writeStatus v).msgFid = s.msgFid := rfl
@[simp] theorem State.writeStatus_msgPlen (v : Byte) : (s.writeStatus v).msgPlen = s.msgPlen := rfl
@[simp] theorem State.writeStatus_valid (v : Byte) : (s.writeStatus v).valid = s.valid := rfl
@[simp] theorem State.writeStatus_ppres (v : Byte) : (s.writeStatus v).ppres = s.ppres := rfl
@[simp] theorem State.writeStatus_msgCs (v : Byte) : (s.writeStatus v).msgCs = s.msgCs := rfl
@[simp] theorem State.writeStatus_chk (v : Byte) : (s.writeStatus v).chk = s.chk := rfl
@[simp] theorem State.writeStatus_rxKind (v : Byte) : (s.writeStatus v).rxKind = s.rxKind := rfl
@[simp] theorem State.writeStatus_epoch (v : Byte) : (s.writeStatus v).epoch = s.epoch := rfl
@[simp] theorem State.writeStatus_draws (v : Byte) : (s.writeStatus v).draws = s.draws := rfl
@[simp] theorem State.writeStatus_inputs (v : Byte) : (s.writeStatus v).inputs = s.inputs := rfl
@[simp] theorem State.writeStatus_readLog (v : Byte) : (s.writeStatus v).readLog = s.readLog := rfl

/-! ## writeCtrl -/

@[simp] theorem State.writeCtrl_cfg (v : Byte) : (s.writeCtrl v).cfg = s.cfg := rfl
@[simp] theorem State.writeCtrl_mem (v : Byte) : (s.writeCtrl v).mem = s.mem := rfl
@[simp] theorem State.writeCtrl_op (v : Byte) : (s.writeCtrl v).op = s.op := rfl
@[simp] theorem State.writeCtrl_busy (v : Byte) : (s.writeCtrl v).busy = s.busy := rfl
@[simp] theorem State.writeCtrl_done (v : Byte) : (s.writeCtrl v).done = s.done := rfl
@[simp] theorem State.writeCtrl_result (v : Byte) : (s.writeCtrl v).result = s.result := rfl
@[simp] theorem State.writeCtrl_hz (v : Byte) : (s.writeCtrl v).hz = s.hz := rfl
@[simp] theorem State.writeCtrl_err (v : Byte) : (s.writeCtrl v).err = s.err := rfl
@[simp] theorem State.writeCtrl_ie (v : Byte) : (s.writeCtrl v).ie = v.getLsbD 0 := rfl
@[simp] theorem State.writeCtrl_rxLen (v : Byte) : (s.writeCtrl v).rxLen = s.rxLen := rfl
@[simp] theorem State.writeCtrl_txLen (v : Byte) : (s.writeCtrl v).txLen = s.txLen := rfl
@[simp] theorem State.writeCtrl_msgType (v : Byte) : (s.writeCtrl v).msgType = s.msgType := rfl
@[simp] theorem State.writeCtrl_msgFid (v : Byte) : (s.writeCtrl v).msgFid = s.msgFid := rfl
@[simp] theorem State.writeCtrl_msgPlen (v : Byte) : (s.writeCtrl v).msgPlen = s.msgPlen := rfl
@[simp] theorem State.writeCtrl_valid (v : Byte) : (s.writeCtrl v).valid = s.valid := rfl
@[simp] theorem State.writeCtrl_ppres (v : Byte) : (s.writeCtrl v).ppres = s.ppres := rfl
@[simp] theorem State.writeCtrl_msgCs (v : Byte) : (s.writeCtrl v).msgCs = s.msgCs := rfl
@[simp] theorem State.writeCtrl_chk (v : Byte) : (s.writeCtrl v).chk = s.chk := rfl
@[simp] theorem State.writeCtrl_rxKind (v : Byte) : (s.writeCtrl v).rxKind = s.rxKind := rfl
@[simp] theorem State.writeCtrl_epoch (v : Byte) : (s.writeCtrl v).epoch = s.epoch := rfl
@[simp] theorem State.writeCtrl_draws (v : Byte) : (s.writeCtrl v).draws = s.draws := rfl
@[simp] theorem State.writeCtrl_inputs (v : Byte) : (s.writeCtrl v).inputs = s.inputs := rfl
@[simp] theorem State.writeCtrl_readLog (v : Byte) : (s.writeCtrl v).readLog = s.readLog := rfl

/-! ## writeFlags -/

@[simp] theorem State.writeFlags_cfg (v : Byte) : (s.writeFlags v).cfg = s.cfg := rfl
@[simp] theorem State.writeFlags_mem (v : Byte) : (s.writeFlags v).mem = s.mem := rfl
@[simp] theorem State.writeFlags_op (v : Byte) : (s.writeFlags v).op = s.op := rfl
@[simp] theorem State.writeFlags_busy (v : Byte) : (s.writeFlags v).busy = s.busy := rfl
@[simp] theorem State.writeFlags_done (v : Byte) : (s.writeFlags v).done = s.done := rfl
@[simp] theorem State.writeFlags_result (v : Byte) : (s.writeFlags v).result = s.result := rfl
@[simp] theorem State.writeFlags_hz (v : Byte) : (s.writeFlags v).hz = s.hz := rfl
@[simp] theorem State.writeFlags_err (v : Byte) : (s.writeFlags v).err = s.err := rfl
@[simp] theorem State.writeFlags_ie (v : Byte) : (s.writeFlags v).ie = s.ie := rfl
@[simp] theorem State.writeFlags_rxLen (v : Byte) : (s.writeFlags v).rxLen = s.rxLen := rfl
@[simp] theorem State.writeFlags_txLen (v : Byte) : (s.writeFlags v).txLen = s.txLen := rfl
@[simp] theorem State.writeFlags_msgType (v : Byte) : (s.writeFlags v).msgType = s.msgType := rfl
@[simp] theorem State.writeFlags_msgFid (v : Byte) : (s.writeFlags v).msgFid = s.msgFid := rfl
@[simp] theorem State.writeFlags_msgPlen (v : Byte) : (s.writeFlags v).msgPlen = s.msgPlen := rfl
@[simp] theorem State.writeFlags_valid (v : Byte) : (s.writeFlags v).valid = v.getLsbD 0 := rfl
@[simp] theorem State.writeFlags_ppres (v : Byte) : (s.writeFlags v).ppres = v.getLsbD 1 := rfl
@[simp] theorem State.writeFlags_msgCs (v : Byte) : (s.writeFlags v).msgCs = s.msgCs := rfl
@[simp] theorem State.writeFlags_chk (v : Byte) : (s.writeFlags v).chk = s.chk := rfl
@[simp] theorem State.writeFlags_rxKind (v : Byte) : (s.writeFlags v).rxKind = s.rxKind := rfl
@[simp] theorem State.writeFlags_epoch (v : Byte) : (s.writeFlags v).epoch = s.epoch := rfl
@[simp] theorem State.writeFlags_draws (v : Byte) : (s.writeFlags v).draws = s.draws := rfl
@[simp] theorem State.writeFlags_inputs (v : Byte) : (s.writeFlags v).inputs = s.inputs := rfl
@[simp] theorem State.writeFlags_readLog (v : Byte) : (s.writeFlags v).readLog = s.readLog := rfl

/-! ## The derived updates -/

/-- `raise` is `finish` with `RESULT = 0` (00_scope.md R9). -/
@[simp] theorem State.raise_eq_finish (c : Code) : s.raise c = s.finish c false := rfl

/-- An illegal byte's completion is one `finish` (R85). -/
@[simp] theorem State.finishIllegal_eq_finish : s.finishIllegal = s.finish .illegalCmd false := rfl

/-- A failing decode is `RX_KIND <- NONE` and one `finish` (R130). -/
@[simp] theorem State.failDecode_eq_finish (c : Code) :
    s.failDecode c = ({ s with rxKind := .none } : State).finish c false := rfl

/-- A buffer byte depends on the memory and the epoch only. -/
theorem State.byteAt_congr {s t : State} (hm : t.mem = s.mem) (he : t.epoch = s.epoch) (a : Nat) :
    t.byteAt a = s.byteAt a := by simp only [State.byteAt, hm, he]

@[simp] theorem State.finish_byteAt (c : Code) (r : Bool) (a : Nat) : (s.finish c r).byteAt a = s.byteAt a := rfl
@[simp] theorem State.accept_byteAt (v : Byte) (a : Nat) : (s.accept v).byteAt a = s.byteAt a := rfl
@[simp] theorem State.flagHazard_byteAt (a : Nat) : s.flagHazard.byteAt a = s.byteAt a := rfl

end Sys2Proof.Machine
end

