-- ==== Sys2Proof/Laws/Memory.lean ====
section
/-! SUPPORT. The buffers' memory: read after write, and the canonical form is kept. -/

namespace Sys2Proof.Machine

namespace Memory

variable (m : Memory)

theorem entry_write_same (a : Nat) (v : Byte) : (m.write a v).entry a = some v := by
  induction m with
  | nil => simp [write, entry]
  | cons c rest ih =>
    obtain ⟨b, w⟩ := c
    simp only [write]
    split
    · simp [entry]
    · split
      · simp [entry]
      · have : b ≠ a := by omega
        simp [entry, this, ih]

theorem entry_write_other {a c : Nat} (h : c ≠ a) (v : Byte) : (m.write a v).entry c = m.entry c := by
  have h' : a ≠ c := fun e => h e.symm
  induction m with
  | nil => simp [write, entry, h']
  | cons d rest ih =>
    obtain ⟨b, w⟩ := d
    simp only [write]
    split
    · simp [entry, h']
    · split
      · rename_i _ e
        subst e
        simp [entry, h']
      · simp [entry, ih]

/-- Reading one byte after writing one byte. -/
theorem read_write (e a c : Nat) (v : Byte) : (m.write a v).read e c = if c = a then v else m.read e c := by
  by_cases h : c = a
  · subst h
    simp [read, entry_write_same]
  · simp [read, entry_write_other m h, h]

@[simp] theorem read_write_same (e a : Nat) (v : Byte) : (m.write a v).read e a = v := by simp [read_write]

theorem read_write_other {e a c : Nat} (h : c ≠ a) (v : Byte) : (m.write a v).read e c = m.read e c := by
  simp [read_write, h]

/-- Reading one byte after writing a run of `n` bytes from `base` on. -/
theorem read_fill (e base : Nat) (f : Nat → Byte) (n c : Nat) :
    (m.fill base f n).read e c = if base ≤ c ∧ c < base + n then f (c - base) else m.read e c := by
  induction n with
  | zero =>
    have : ¬(base ≤ c ∧ c < base + 0) := by omega
    simp only [fill, if_neg this]
  | succ n ih =>
    simp only [fill, read_write, ih]
    by_cases h : c = base + n
    · subst h
      have : base ≤ base + n ∧ base + n < base + (n + 1) := by omega
      simp
    · by_cases h2 : base ≤ c ∧ c < base + n
      · have h3 : base ≤ c ∧ c < base + (n + 1) := by omega
        rw [if_neg h, if_pos h2, if_pos h3]
      · have h3 : ¬(base ≤ c ∧ c < base + (n + 1)) := by omega
        rw [if_neg h, if_neg h2, if_neg h3]

theorem read_fill_inside {e base n c : Nat} (f : Nat → Byte) (h1 : base ≤ c) (h2 : c < base + n) :
    (m.fill base f n).read e c = f (c - base) := by
  rw [read_fill, if_pos ⟨h1, h2⟩]

theorem read_fill_outside {e base n c : Nat} (f : Nat → Byte) (h : c < base ∨ base + n ≤ c) :
    (m.fill base f n).read e c = m.read e c := by
  rw [read_fill, if_neg (by omega)]

/-- The offsets after a write are the offsets before it and the one written. -/
theorem mem_offsets_write {a : Nat} {v : Byte} {x : Nat} (h : x ∈ (m.write a v).map Prod.fst) :
    x = a ∨ x ∈ m.map Prod.fst := by
  induction m with
  | nil => simpa [write] using h
  | cons c rest ih =>
    obtain ⟨b, w⟩ := c
    simp only [write] at h
    split at h
    · simpa using h
    · split at h
      · simp only [List.map_cons, List.mem_cons] at h ⊢
        rcases h with h | h
        · exact .inl h
        · exact .inr (.inr h)
      · simp only [List.map_cons, List.mem_cons] at h ⊢
        rcases h with h | h
        · exact .inr (.inl h)
        · rcases ih h with h | h
          · exact .inl h
          · exact .inr (.inr h)

theorem write_rising (a : Nat) (v : Byte) (h : (m.map Prod.fst).Pairwise (· < ·)) :
    ((m.write a v).map Prod.fst).Pairwise (· < ·) := by
  induction m with
  | nil => simp [write]
  | cons c rest ih =>
    obtain ⟨b, w⟩ := c
    rw [List.map_cons, List.pairwise_cons] at h
    simp only [write]
    split
    · rename_i hab
      rw [List.map_cons, List.map_cons, List.pairwise_cons, List.pairwise_cons]
      refine ⟨?_, h⟩
      intro x hx
      rcases List.mem_cons.mp hx with e | hx
      · simpa [e] using hab
      · exact Nat.lt_trans hab (h.1 x hx)
    · split
      · rename_i _ e
        subst e
        rw [List.map_cons, List.pairwise_cons]
        exact h
      · rename_i h1 h2
        rw [List.map_cons, List.pairwise_cons]
        refine ⟨?_, ih h.2⟩
        intro x hx
        rcases mem_offsets_write rest hx with e | hx
        · subst e
          show b < x
          omega
        · exact h.1 x hx

/-- Writing a byte of the buffers keeps the canonical form. -/
theorem wf_write {m : Memory} (h : m.wf) {a : Nat} (ha : a < bufferEnd) (v : Byte) : (m.write a v).wf := by
  refine ⟨write_rising m a v h.1, ?_⟩
  intro c hc
  rcases mem_offsets_write m (List.mem_map_of_mem hc) with e | hx
  · rw [e]
    exact ha
  · obtain ⟨d, hd, e⟩ := List.mem_map.mp hx
    rw [← e]
    exact h.2 d hd

/-- Writing a run of bytes inside the buffers keeps the canonical form. -/
theorem wf_fill {m : Memory} (h : m.wf) {base n : Nat} (hn : base + n ≤ bufferEnd) (f : Nat → Byte) :
    (m.fill base f n).wf := by
  induction n with
  | zero => exact h
  | succ n ih => exact wf_write (ih (by omega)) (by omega) _

/-- The memory of the reset state is in canonical form. -/
theorem wf_nil : Memory.wf [] := by
  constructor <;> simp

end Memory

/-- Reading a buffer byte after storing one. -/
theorem State.byteAt_store (s : State) (a c : Nat) (v : Byte) :
    (s.store a v).byteAt c = if c = a then v else s.byteAt c := by
  simp [State.byteAt, Memory.read_write]

end Sys2Proof.Machine
end

