-- ==== Sys2Proof/Laws/Checksum.lean ====
section
/-! SUPPORT. The checksum function, one byte at a time. -/

namespace Sys2Proof.Machine

/-- An empty range leaves the seed (R100). -/
theorem ck_of_le (B : Nat → Byte) {a b : Nat} (h : b ≤ a) : ck B a b = ckSeed := by
  have : b - a = 0 := by omega
  simp [ck, this]

/-- One more byte at the end of the range (R100). -/
theorem ck_succ (B : Nat → Byte) {a b : Nat} (h : a ≤ b) : ck B a (b + 1) = ck B a b ^^^ B b := by
  have e : b + 1 - a = (b - a) + 1 := by omega
  have e2 : a + (b - a) = b := by omega
  simp [ck, e, List.range'_concat, List.foldl_append, e2]

/-- The checksum reads the bytes of its range only. -/
theorem ck_congr {B C : Nat → Byte} {a b : Nat} (h : ∀ i, a ≤ i → i < b → B i = C i) : ck B a b = ck C a b := by
  induction b with
  | zero => rw [ck_of_le B (Nat.zero_le a), ck_of_le C (Nat.zero_le a)]
  | succ b ih =>
    by_cases hab : a ≤ b
    · rw [ck_succ B hab, ck_succ C hab, h b hab (by omega), ih (fun i h1 h2 => h i h1 (by omega))]
    · rw [ck_of_le B (by omega), ck_of_le C (by omega)]

/-- The checksum of a shifted view of the bytes. -/
theorem ck_shift (B : Nat → Byte) (d a b : Nat) : ck (fun i => B (i + d)) a b = ck B (a + d) (b + d) := by
  induction b with
  | zero => rw [ck_of_le _ (Nat.zero_le a), ck_of_le _ (by omega)]
  | succ b ih =>
    by_cases hab : a ≤ b
    · rw [ck_succ _ hab, ih, Nat.add_right_comm b 1 d, ck_succ B (by omega)]
    · rw [ck_of_le _ (by omega), ck_of_le _ (by omega)]

end Sys2Proof.Machine
end

