-- ==== Sys2Proof/Laws/Window.lean ====
section
/-! SUPPORT. The window map: bus addresses, offsets and locations. -/

namespace Sys2Proof.Machine

/-- The bus address of an offset falls on that offset (R60). -/
@[simp] theorem offsetOf_busAddr (c : Config) (off : Offset) : offsetOf? c (busAddr c off) = some off := by
  have h := off.isLt
  have h2 : c.base ≤ busAddr c off ∧ busAddr c off < c.base + windowSize := by
    simp only [windowSize, busAddr]
    omega
  rw [offsetOf?, if_pos h2, busAddr, Nat.add_sub_cancel_left]
  simp

/-- A bus address outside the window falls on no offset. -/
theorem offsetOf_outside {c : Config} {a : Nat} (h : a < c.base ∨ c.base + windowSize ≤ a) : offsetOf? c a = none := by
  rw [offsetOf?, if_neg (by omega)]

/-- Every offset below 0x300 is a buffer byte at that very offset. -/
theorem locate_buffer {off : Offset} (h : off.toNat < bufferEnd) :
    ∃ b i, locate off = .buf b i ∧ b.base + i.val = off.toNat := by
  simp only [bufferEnd] at h
  by_cases h1 : off.toNat < 0x100
  · refine ⟨.rx, Fin.ofNat 256 off.toNat, by simp [locate, h1], ?_⟩
    simp [Buf.base, Fin.ofNat, Nat.mod_eq_of_lt h1]
  · by_cases h2 : off.toNat < 0x200
    · refine ⟨.tx, Fin.ofNat 256 off.toNat, by simp [locate, h1, h2], ?_⟩
      simp [Buf.base, Fin.ofNat]
      omega
    · refine ⟨.pay, Fin.ofNat 256 off.toNat, by simp [locate, h1, h2, h], ?_⟩
      simp [Buf.base, Fin.ofNat]
      omega

/-- The offsets from 0x30F on are reserved (R36). -/
theorem locate_reserved {off : Offset} (h : 0x30F ≤ off.toNat) : locate off = .reserved := by
  have h1 : ¬off.toNat < 0x100 := by omega
  have h2 : ¬off.toNat < 0x200 := by omega
  have h3 : ¬off.toNat < 0x300 := by omega
  have h4 : Reg.table.length ≤ off.toNat - 0x300 := by
    show 15 ≤ _
    omega
  simp only [locate]
  rw [if_neg h1, if_neg h2, if_neg h3, List.getElem?_eq_none h4]

/-- A location of the buffers lies inside the memory. -/
theorem bufOffset_lt (b : Buf) (i : Fin 256) : b.base + i.val < bufferEnd := by
  have := i.isLt
  cases b <;> simp only [Buf.base, bufferEnd] <;> omega

/-- The offset of a register (R60). -/
def Reg.offset : Reg → Nat
  | .cmd => 0x300
  | .status => 0x301
  | .err => 0x302
  | .ctrl => 0x303
  | .rxlenL => 0x304
  | .rxlenH => 0x305
  | .txlenL => 0x306
  | .txlenH => 0x307
  | .msgType => 0x308
  | .msgFid => 0x309
  | .msgPlen => 0x30A
  | .msgFlags => 0x30B
  | .msgCs => 0x30C
  | .chk => 0x30D
  | .rxKind => 0x30E

/-- The offset of a location, where it has one of its own. -/
def Loc.offset : Loc → Nat
  | .buf b i => b.base + i.val
  | .reg r => r.offset
  | .reserved => 0x30F

/-- An offset of a register names that register. -/
theorem locate_reg (r : Reg) : locate (BitVec.ofNat 12 r.offset) = .reg r := by cases r <;> decide

/-- Two offsets below 0x30F name one location only if they are one offset (R60). -/
theorem offset_locate {off : Offset} (h : off.toNat < 0x30F) : (locate off).offset = off.toNat := by
  by_cases hb : off.toNat < bufferEnd
  · obtain ⟨b, i, e, hi⟩ := locate_buffer hb
    rw [e]
    exact hi
  · simp only [bufferEnd] at hb
    have h1 : ¬off.toNat < 0x100 := by omega
    have h2 : ¬off.toNat < 0x200 := by omega
    obtain ⟨k, hk, e⟩ : ∃ k, k < 15 ∧ off.toNat = 0x300 + k := ⟨off.toNat - 0x300, by omega, by omega⟩
    simp only [locate]
    rw [if_neg h1, if_neg h2, if_neg hb, e, Nat.add_sub_cancel_left]
    have : ∀ k, k < 15 → ∃ r, Reg.table[k]? = some r ∧ r.offset = 0x300 + k := by decide
    obtain ⟨r, hr, ho⟩ := this k hk
    rw [hr]
    exact ho

end Sys2Proof.Machine
end

