-- ==== Sys2Proof/Laws/Meanings.lean ====
section
/-! SUPPORT. What the meanings and the shared operations can do, said once. -/

namespace Sys2Proof.Machine

/-- Everything a decode can do: fail before the checksum is computed, fail after it, or accept a frame of `n` bytes that
passed every check of R121. -/
theorem State.decodeEnvelope_cases (s : State) :
    (∃ c, c ≠ Code.ok ∧ s.decodeEnvelope = s.failDecode c) ∨
    (∃ c, c ≠ Code.ok ∧
      s.decodeEnvelope = ({ s with chk := ck s.rx 1 (s.rxLen.toNat - 1) } : State).failDecode c) ∨
    (5 ≤ s.rxLen.toNat ∧ s.rxLen.toNat ≤ 256 ∧ s.rx 0 = s.cfg.start ∧ (s.rx 1).toNat = s.rxLen.toNat - 2 ∧
      ck s.rx 1 (s.rxLen.toNat - 1) = s.rx (s.rxLen.toNat - 1) ∧ (s.rx 2 = typeRequest ∨ s.rx 2 = typeResponse) ∧
      s.decodeEnvelope =
        ({ s with chk := ck s.rx 1 (s.rxLen.toNat - 1) } : State).acceptEnvelope s.rxLen.toNat) := by
  by_cases h1 : s.rxLen.toNat < minFrame
  · exact .inl ⟨.tooShort, by decide, by rw [decodeEnvelope, if_pos h1]⟩
  by_cases h2 : s.rx 0 ≠ s.cfg.start
  · exact .inl ⟨.badStart, by decide, by rw [decodeEnvelope, if_neg h1, if_pos h2]⟩
  by_cases h3 : (s.rx 1).toNat ≠ s.rxLen.toNat - 2
  · exact .inl ⟨.badLength, by decide, by rw [decodeEnvelope, if_neg h1, if_neg h2, if_pos h3]⟩
  by_cases h4 : s.rxLen.toNat > bufSize
  · exact .inl ⟨.range, by decide, by rw [decodeEnvelope, if_neg h1, if_neg h2, if_neg h3, if_pos h4]⟩
  by_cases h5 : ck s.rx 1 (s.rxLen.toNat - 1) ≠ s.rx (s.rxLen.toNat - 1)
  · refine .inr (.inl ⟨.badChecksum, by decide, ?_⟩)
    rw [decodeEnvelope, if_neg h1, if_neg h2, if_neg h3, if_neg h4]
    exact if_pos h5
  by_cases h6 : s.rx 2 ≠ typeRequest ∧ s.rx 2 ≠ typeResponse
  · refine .inr (.inl ⟨.badType, by decide, ?_⟩)
    rw [decodeEnvelope, if_neg h1, if_neg h2, if_neg h3, if_neg h4]
    exact (if_neg h5).trans (if_pos h6)
  · refine .inr (.inr ⟨by simpa using h1, by simpa using h4, by simpa using h2, by simpa using h3, by simpa using h5, ?_, ?_⟩)
    · by_cases h7 : s.rx 2 = typeRequest
      · exact .inl h7
      · exact .inr (Decidable.of_not_not fun h => h6 ⟨h7, h⟩)
    · rw [decodeEnvelope, if_neg h1, if_neg h2, if_neg h3, if_neg h4]
      exact (if_neg h5).trans (if_neg h6)

/-- The state a successful `ENCODE` leaves, before its `finish`. -/
theorem execEncode_success {s : State} (hv : s.valid = true)
    (hp : ¬((s.ppres = false ∧ 0 < s.msgPlen.toNat) ∨ (s.ppres = true ∧ s.msgPlen.toNat = 0)))
    (hl : s.msgPlen.toNat ≤ 251) :
    ∃ m c, execEncode s =
        .next (({ s with mem := m, txLen := BitVec.ofNat 9 (s.msgPlen.toNat + 5), chk := c } : State).finish .ok true) ∧
      m = (s.mem.fill 0x100 s.envelopeByte (s.msgPlen.toNat + 4)).write (0x100 + (s.msgPlen.toNat + 4)) c ∧
      c = ck s.envelopeByte 1 (s.msgPlen.toNat + 4) := by
  have hl' : ¬s.msgPlen.toNat > maxPayload := by
    simp only [maxPayload]
    omega
  have hc : ck ({ s with mem := s.mem.fill (Buf.base .tx) s.envelopeByte (s.msgPlen.toNat + 4) } : State).tx 1
      (s.msgPlen.toNat + 4) = ck s.envelopeByte 1 (s.msgPlen.toNat + 4) := by
    apply ck_congr
    intro i h1 h2
    simp only [State.tx, State.byteAt]
    rw [Memory.read_fill_inside s.mem _ (Nat.le_add_right _ _) (by omega), Nat.add_sub_cancel_left]
  refine ⟨_, _, ?_, rfl, rfl⟩
  rw [execEncode, if_neg (by simp [hv]), if_neg hp, if_neg hl']
  simp only [hc]
  rfl

/-- Everything `ENCODE` can do: fail and write nothing but its `finish`, or write the frame of a consistent message. -/
theorem execEncode_cases (s : State) :
    (∃ c, c ≠ Code.ok ∧ execEncode s = .next (s.finish c false)) ∨
    (s.valid = true ∧ s.ppres = decide (0 < s.msgPlen.toNat) ∧ s.msgPlen.toNat ≤ 251 ∧
      ∃ m c, execEncode s =
          .next (({ s with mem := m, txLen := BitVec.ofNat 9 (s.msgPlen.toNat + 5), chk := c } : State).finish .ok true) ∧
        m = (s.mem.fill 0x100 s.envelopeByte (s.msgPlen.toNat + 4)).write (0x100 + (s.msgPlen.toNat + 4)) c ∧
        c = ck s.envelopeByte 1 (s.msgPlen.toNat + 4)) := by
  by_cases h1 : s.valid = false
  · exact .inl ⟨.invalid, by decide, by rw [execEncode, if_pos h1]; rfl⟩
  by_cases h2 : (s.ppres = false ∧ 0 < s.msgPlen.toNat) ∨ (s.ppres = true ∧ s.msgPlen.toNat = 0)
  · exact .inl ⟨.inconsistentPayload, by decide, by rw [execEncode, if_neg h1, if_pos h2]; rfl⟩
  by_cases h3 : s.msgPlen.toNat > maxPayload
  · exact .inl ⟨.tooLong, by decide, by rw [execEncode, if_neg h1, if_neg h2, if_pos h3]; rfl⟩
  have hv : s.valid = true := by simpa using h1
  have hl : s.msgPlen.toNat ≤ 251 := by simpa using h3
  refine .inr ⟨hv, ?_, hl, execEncode_success hv h2 hl⟩
  cases hp : s.ppres
  · have : ¬0 < s.msgPlen.toNat := fun h => h2 (.inl ⟨hp, h⟩)
    simp [this]
  · have : 0 < s.msgPlen.toNat := by
      rcases Nat.eq_zero_or_pos s.msgPlen.toNat with h | h
      · exact absurd (.inr ⟨hp, h⟩) h2
      · exact h
    simp [this]

/-- Everything `RECV` can do: recognise a control frame, or decode (R135). -/
theorem execRecv_cases (s : State) :
    (s.rxLen.toNat = 1 ∧ s.rx 0 = s.cfg.ack ∧ execRecv s = .next (s.acceptControl .ack)) ∨
    (s.rxLen.toNat = 1 ∧ s.rx 0 ≠ s.cfg.ack ∧ s.rx 0 = s.cfg.nack ∧ execRecv s = .next (s.acceptControl .nack)) ∨
    (¬(s.rxLen.toNat = 1 ∧ (s.rx 0 = s.cfg.ack ∨ s.rx 0 = s.cfg.nack)) ∧ execRecv s = .next s.decodeEnvelope) := by
  by_cases h1 : s.rxLen.toNat = 1 ∧ s.rx 0 = s.cfg.ack
  · exact .inl ⟨h1.1, h1.2, by rw [execRecv, if_pos h1]⟩
  by_cases h2 : s.rxLen.toNat = 1 ∧ s.rx 0 = s.cfg.nack
  · exact .inr (.inl ⟨h2.1, fun h => h1 ⟨h2.1, h⟩, h2.2, by rw [execRecv, if_neg h1, if_pos h2]⟩)
  · refine .inr (.inr ⟨?_, by rw [execRecv, if_neg h1, if_neg h2]⟩)
    rintro ⟨h, e | e⟩
    · exact h1 ⟨h, e⟩
    · exact h2 ⟨h, e⟩

/-- Everything `CALC` can do (R102). -/
theorem execCalc_cases (s : State) :
    (256 < s.rxLen.toNat ∧ execCalc s = .next (s.finish .range false)) ∨
    (s.rxLen.toNat ≤ 256 ∧
      execCalc s = .next (({ s with chk := ck s.rx 0 s.rxLen.toNat } : State).finish .ok true)) := by
  by_cases h : s.rxLen.toNat > bufSize
  · exact .inl ⟨h, by rw [execCalc, if_pos h]; rfl⟩
  · exact .inr ⟨by simpa using h, by rw [execCalc, if_neg h]⟩

/-- Everything `CHECK` can do (R103). -/
theorem execCheck_cases (s : State) :
    (256 < s.rxLen.toNat ∧ execCheck s = .next (s.finish .range false)) ∨
    (s.rxLen.toNat < 5 ∧ execCheck s = .next (s.finish .tooShort false)) ∨
    (5 ≤ s.rxLen.toNat ∧ s.rxLen.toNat ≤ 256 ∧
      execCheck s = .next (({ s with chk := ck s.rx 1 (s.rxLen.toNat - 1) } : State).finish .ok
        (decide (ck s.rx 1 (s.rxLen.toNat - 1) = s.rx (s.rxLen.toNat - 1))))) := by
  by_cases h : s.rxLen.toNat > bufSize
  · exact .inl ⟨h, by rw [execCheck, if_pos h]; rfl⟩
  by_cases h2 : s.rxLen.toNat < minFrame
  · exact .inr (.inl ⟨h2, by rw [execCheck, if_neg h, if_pos h2]; rfl⟩)
  · exact .inr (.inr ⟨by simpa using h2, by simpa using h, by rw [execCheck, if_neg h, if_neg h2]⟩)

/-- The shape of every command's effect: it answers a next state, and changes the buffers, the completion registers and the
message registers at most. -/
theorem exec_shape (i : Instr) (s : State) :
    ∃ t, exec i s = .next t ∧
      t = { s with
        mem := t.mem, err := t.err, result := t.result, busy := false, done := true, txLen := t.txLen,
        msgType := t.msgType, msgFid := t.msgFid, msgPlen := t.msgPlen, valid := t.valid, ppres := t.ppres,
        msgCs := t.msgCs, chk := t.chk, rxKind := t.rxKind } := by
  have hd : ∃ t, Host.Outcome.next (φ := Fault) (ρ := Refusal) s.decodeEnvelope = .next t ∧
      t = { s with
        mem := t.mem, err := t.err, result := t.result, busy := false, done := true, txLen := t.txLen,
        msgType := t.msgType, msgFid := t.msgFid, msgPlen := t.msgPlen, valid := t.valid, ppres := t.ppres,
        msgCs := t.msgCs, chk := t.chk, rxKind := t.rxKind } := by
    refine ⟨_, rfl, ?_⟩
    obtain ⟨c, -, e⟩ | ⟨c, -, e⟩ | ⟨-, -, -, -, -, -, e⟩ := s.decodeEnvelope_cases <;> rw [e] <;> rfl
  cases i with
  | calcSum =>
    obtain ⟨-, e⟩ | ⟨-, e⟩ := execCalc_cases s <;> exact ⟨_, e, rfl⟩
  | check =>
    obtain ⟨-, e⟩ | ⟨-, e⟩ | ⟨-, -, e⟩ := execCheck_cases s <;> exact ⟨_, e, rfl⟩
  | decode => exact hd
  | encode =>
    obtain ⟨c, -, e⟩ | ⟨-, -, -, m, c, e, -, -⟩ := execEncode_cases s <;> exact ⟨_, e, rfl⟩
  | ctrlAck => exact ⟨_, rfl, rfl⟩
  | ctrlNack => exact ⟨_, rfl, rfl⟩
  | recv =>
    obtain ⟨-, -, e⟩ | ⟨-, -, -, e⟩ | ⟨-, e⟩ := execRecv_cases s
    · exact ⟨_, e, rfl⟩
    · exact ⟨_, e, rfl⟩
    · obtain ⟨t, h1, h2⟩ := hd
      exact ⟨t, e.trans h1, h2⟩

/-- The completion of a legal byte is its command. -/
theorem complete_legal {s : State} {i : Instr} (h : decodeByte s.op = .ok i) : complete s = exec i s := by
  simp only [complete, h]

/-- The completion of an illegal byte is one `finish` (R85). -/
theorem complete_illegal {s : State} {r : Reject} (h : decodeByte s.op = .error r) :
    complete s = .next (s.finish .illegalCmd false) := by
  simp only [complete, h]
  rfl

/-- A completion is that of a legal command or of an illegal byte. -/
theorem complete_cases (s : State) :
    (∃ i, decodeByte s.op = .ok i ∧ complete s = exec i s) ∨
    (∃ r, decodeByte s.op = .error r ∧ complete s = .next (s.finish .illegalCmd false)) := by
  cases h : decodeByte s.op with
  | ok i => exact .inl ⟨i, rfl, complete_legal h⟩
  | error r => exact .inr ⟨r, rfl, complete_illegal h⟩

end Sys2Proof.Machine
end

