-- ==== Sys2Proof/Laws/Step.lean ====
section
/-! SUPPORT. What a step can do, said once per kind of event. -/

namespace Sys2Proof.Machine

/-- The fields no command reads: the same command at a state that differs in them only finishes alike. -/
theorem exec_env {i : Instr} {s t : State} (h : exec i s = .next t) (o : Byte) (b d hz ie : Bool) (n : Nat)
    (ins : List Input) (log : List Byte) :
    exec i { s with op := o, busy := b, done := d, hz := hz, ie := ie, draws := n, inputs := ins, readLog := log } =
      .next { t with op := o, hz := hz, ie := ie, draws := n, inputs := ins, readLog := log } := by
  have hd : State.decodeEnvelope
      { s with op := o, busy := b, done := d, hz := hz, ie := ie, draws := n, inputs := ins, readLog := log } =
      (fun x : State => { x with op := o, hz := hz, ie := ie, draws := n, inputs := ins, readLog := log })
        s.decodeEnvelope := by
    unfold State.decodeEnvelope
    simp only [apply_ite (fun x : State =>
      { x with op := o, hz := hz, ie := ie, draws := n, inputs := ins, readLog := log })]
    rfl
  cases i with
  | calcSum =>
    simp only [exec, execCalc] at h ⊢
    split at h
    · rename_i hc
      rw [if_pos hc]
      cases h
      rfl
    · rename_i hc
      rw [if_neg hc]
      cases h
      rfl
  | check =>
    simp only [exec, execCheck] at h ⊢
    split at h
    · rename_i hc
      rw [if_pos hc]
      cases h
      rfl
    · rename_i hc
      rw [if_neg hc]
      split at h
      · rename_i hc2
        rw [if_pos hc2]
        cases h
        rfl
      · rename_i hc2
        rw [if_neg hc2]
        cases h
        rfl
  | decode =>
    simp only [exec, execDecode] at h ⊢
    cases h
    rw [hd]
  | encode =>
    simp only [exec, execEncode] at h ⊢
    split at h
    · rename_i hc
      rw [if_pos hc]
      cases h
      rfl
    · rename_i hc
      rw [if_neg hc]
      split at h
      · rename_i hc2
        rw [if_pos hc2]
        cases h
        rfl
      · rename_i hc2
        rw [if_neg hc2]
        split at h
        · rename_i hc3
          rw [if_pos hc3]
          cases h
          rfl
        · rename_i hc3
          rw [if_neg hc3]
          cases h
          rfl
  | ctrlAck =>
    simp only [exec, execCtrlAck] at h ⊢
    cases h
    rfl
  | ctrlNack =>
    simp only [exec, execCtrlNack] at h ⊢
    cases h
    rfl
  | recv =>
    obtain ⟨c1, c2, e⟩ | ⟨c1, c2, c3, e⟩ | ⟨c, e⟩ := execRecv_cases s
    · rw [show exec .recv s = execRecv s from rfl, e] at h
      cases h
      simp only [exec, execRecv]
      exact if_pos ⟨c1, c2⟩
    · rw [show exec .recv s = execRecv s from rfl, e] at h
      cases h
      simp only [exec, execRecv]
      exact (if_neg (fun h => c2 h.2)).trans (if_pos ⟨c1, c3⟩)
    · rw [show exec .recv s = execRecv s from rfl, e] at h
      cases h
      simp only [exec, execRecv]
      refine Eq.trans ?_ (congrArg Host.Outcome.next hd)
      exact (if_neg (fun h => c ⟨h.1, .inl h.2⟩)).trans (if_neg (fun h => c ⟨h.1, .inr h.2⟩))

/-- The fields no completion reads: `exec_env` for the byte in `OP`. -/
theorem complete_env {s t : State} (h : complete s = .next t) (b d hz ie : Bool) (n : Nat) (ins : List Input)
    (log : List Byte) :
    complete { s with busy := b, done := d, hz := hz, ie := ie, draws := n, inputs := ins, readLog := log } =
      .next { t with hz := hz, ie := ie, draws := n, inputs := ins, readLog := log } := by
  obtain ⟨i, hi, e⟩ | ⟨r, hr, e⟩ := complete_cases s
  · have ho : t.op = s.op := by
      obtain ⟨t', h1, h2⟩ := exec_shape i s
      rw [← e, h] at h1
      cases h1
      rw [h2]
    rw [e] at h
    have := exec_env h s.op b d hz ie n ins log
    refine (complete_legal (s :=
      { s with busy := b, done := d, hz := hz, ie := ie, draws := n, inputs := ins, readLog := log }) hi).trans ?_
    rw [this, ho]
  · rw [e] at h
    cases h
    exact complete_illegal (s :=
      { s with busy := b, done := d, hz := hz, ie := ie, draws := n, inputs := ins, readLog := log }) hr

/-- Every completion answers a next state with the shape of `exec_shape`. -/
theorem complete_shape (s : State) :
    ∃ t, complete s = .next t ∧
      t = { s with
        mem := t.mem, err := t.err, result := t.result, busy := false, done := true, txLen := t.txLen,
        msgType := t.msgType, msgFid := t.msgFid, msgPlen := t.msgPlen, valid := t.valid, ppres := t.ppres,
        msgCs := t.msgCs, chk := t.chk, rxKind := t.rxKind } := by
  obtain ⟨i, -, e⟩ | ⟨r, -, e⟩ := complete_cases s
  · obtain ⟨t, h1, h2⟩ := exec_shape i s
    exact ⟨t, e.trans h1, h2⟩
  · exact ⟨_, e, rfl⟩

/-! ## One lemma per kind of event -/

section

variable {s : State} (hw : s.cfg.wf = true)

include hw

theorem step_no_input (hi : s.inputs = []) : step s = engineTurn s := by simp only [step, if_pos hw, hi]

theorem step_engine {rest : List Input} (hi : s.inputs = .engine :: rest) :
    step s = engineTurn { s with inputs := rest } := by simp only [step, if_pos hw, hi]

theorem step_reset {rest : List Input} (hi : s.inputs = .reset :: rest) :
    step s = .next (State.resetEvent { s with inputs := rest }) := by simp only [step, if_pos hw, hi]

theorem step_rd {rest : List Input} {off : Offset} (hi : s.inputs = .host (.rd (busAddr s.cfg off)) :: rest) :
    step s = hostRead { s with inputs := rest } (locate off) := by
  simp only [step, if_pos hw, hi, hostAccess, offsetOf_busAddr]

theorem step_wr {rest : List Input} {off : Offset} {v : Byte}
    (hi : s.inputs = .host (.wr (busAddr s.cfg off) v) :: rest) :
    step s = .next (hostWrite { s with inputs := rest } (locate off) v) := by
  simp only [step, if_pos hw, hi, hostAccess, offsetOf_busAddr]

end

/-- A bus address inside the window is the address of an offset. -/
theorem busAddr_of_inWindow {c : Config} {a : Nat} (h : c.base ≤ a ∧ a < c.base + 0x1000) :
    ∃ off : Offset, a = busAddr c off := by
  refine ⟨BitVec.ofNat 12 (a - c.base), ?_⟩
  simp only [busAddr, BitVec.toNat_ofNat]
  omega

/-- A host read that answers a next state changes the host's log and the draws at most. -/
theorem hostRead_next {s t : State} {l : Loc} (h : hostRead s l = .next t) :
    t = { s with readLog := s.readByte l :: s.readLog, draws := t.draws } := by
  simp only [hostRead] at h
  split at h
  · cases h
  · cases h
    rfl

/-- A host read answers a next state where the error code is one that is produced. -/
theorem hostRead_ok {s : State} (he : s.err.toNat ≤ 10) (l : Loc) :
    hostRead s l = .next
      { s with readLog := s.readByte l :: s.readLog, draws := if s.raced l then s.draws + 1 else s.draws } := by
  have : ¬(l = .reg .err ∧ codeProduced s.err = false) := by
    simp [codeProduced, he]
  rw [hostRead, if_neg this]

/-- While a command is in flight a host write changes `HZ`, `DONE` and `IE` at most. -/
theorem hostWrite_busy {s : State} (hb : s.busy = true) (l : Loc) (v : Byte) :
    ∃ d hz ie, hostWrite s l v = { s with done := d, hz := hz, ie := ie } ∧ (s.done = false → d = false) := by
  by_cases hg : l.guarded = true
  · exact ⟨s.done, true, s.ie, by simp [hostWrite, hb, hg, State.flagHazard], id⟩
  · have e : hostWrite s l v = s.applyWrite l v := by simp [hostWrite, hg]
    rw [e]
    cases l with
    | buf b i => exact absurd rfl hg
    | reserved => exact ⟨s.done, s.hz, s.ie, rfl, id⟩
    | reg r =>
      cases r with
      | status => exact ⟨_, _, _, rfl, fun h => by simp [h]⟩
      | ctrl => exact ⟨_, _, _, rfl, id⟩
      | err => exact ⟨_, _, _, rfl, id⟩
      | txlenL => exact ⟨_, _, _, rfl, id⟩
      | txlenH => exact ⟨_, _, _, rfl, id⟩
      | chk => exact ⟨_, _, _, rfl, id⟩
      | rxKind => exact ⟨_, _, _, rfl, id⟩
      | cmd => exact absurd rfl hg
      | rxlenL => exact absurd rfl hg
      | rxlenH => exact absurd rfl hg
      | msgType => exact absurd rfl hg
      | msgFid => exact absurd rfl hg
      | msgPlen => exact absurd rfl hg
      | msgFlags => exact absurd rfl hg
      | msgCs => exact absurd rfl hg

/-- Everything a step that answers a next state can be. -/
theorem step_cases {s t : State} (h : step s = .next t) :
    s.cfg.wf = true ∧
    ((s.busy = false ∧ (s.inputs = [] ∨ s.inputs.head? = some .engine) ∧ t = { s with inputs := s.inputs.tail }) ∨
     (s.busy = true ∧ (s.inputs = [] ∨ s.inputs.head? = some .engine) ∧
       complete { s with inputs := s.inputs.tail } = .next t) ∨
     (s.inputs.head? = some .reset ∧ t = State.resetEvent { s with inputs := s.inputs.tail }) ∨
     (∃ off, s.inputs.head? = some (.host (.rd (busAddr s.cfg off))) ∧
       hostRead { s with inputs := s.inputs.tail } (locate off) = .next t) ∨
     (∃ off v, s.inputs.head? = some (.host (.wr (busAddr s.cfg off) v)) ∧
       t = hostWrite { s with inputs := s.inputs.tail } (locate off) v)) := by
  by_cases hw : s.cfg.wf = true
  · refine ⟨hw, ?_⟩
    cases hi : s.inputs with
    | nil =>
      rw [step_no_input hw hi, engineTurn] at h
      have hs : { s with inputs := [] } = s := by rw [← hi]
      by_cases hb : s.busy = true
      · rw [if_pos hb] at h
        refine .inr (.inl ⟨hb, .inl rfl, ?_⟩)
        show complete { s with inputs := [] } = .next t
        rw [hs]
        exact h
      · rw [if_neg hb] at h
        cases h
        exact .inl ⟨by simpa using hb, .inl rfl, hs.symm⟩
    | cons e rest =>
      cases e with
      | engine =>
        rw [step_engine hw hi, engineTurn] at h
        by_cases hb : s.busy = true
        · rw [if_pos (show ({ s with inputs := rest } : State).busy = true from hb)] at h
          exact .inr (.inl ⟨hb, .inr rfl, h⟩)
        · rw [if_neg (show ¬({ s with inputs := rest } : State).busy = true from hb)] at h
          cases h
          exact .inl ⟨by simpa using hb, .inr rfl, rfl⟩
      | reset =>
        rw [step_reset hw hi] at h
        cases h
        exact .inr (.inr (.inl ⟨rfl, rfl⟩))
      | host op =>
        simp only [step, if_pos hw, hi, hostAccess] at h
        have addr : ∀ a off, offsetOf? s.cfg a = some off → a = busAddr s.cfg off := by
          intro a off ho
          simp only [offsetOf?, windowSize] at ho
          split at ho
          · cases ho
            simp only [busAddr, BitVec.toNat_ofNat]
            omega
          · cases ho
        cases op with
        | rd a =>
          cases ho : offsetOf? s.cfg a with
          | none =>
            simp only [ho] at h
            cases h
          | some off =>
            simp only [ho] at h
            exact .inr (.inr (.inr (.inl ⟨off, by rw [addr a off ho]; rfl, h⟩)))
        | wr a v =>
          cases ho : offsetOf? s.cfg a with
          | none =>
            simp only [ho] at h
            cases h
          | some off =>
            simp only [ho] at h
            cases h
            exact .inr (.inr (.inr (.inr ⟨off, v, by rw [addr a off ho]; rfl, rfl⟩)))
  · simp only [step, if_neg hw] at h
    cases h

end Sys2Proof.Machine
end

