-- ==== Sys2Proof/Laws/Completion.lean ====
section
/-! SUPPORT. What a completion can do to each kind of state, runs of several steps, and the write sets by offset. -/

namespace Sys2Proof.Machine

/-! ## Decoding a byte -/

/-- A byte that decodes to a command is that command's byte. -/
theorem decodeByte_inv {b : Byte} {i : Instr} (h : decodeByte b = .ok i) : b = encodeByte i := by
  have all : ∀ b : Byte, decodeByte b = .ok i → b = encodeByte i := by cases i <;> decide
  exact all b h

/-! ## A completion -/

/-- What a decode does to the buffers: nothing, or a run of at most 251 bytes from `PAY[0]` on. -/
theorem decodeEnvelope_mem (s : State) :
    s.decodeEnvelope.mem = s.mem ∨ ∃ n f, n ≤ 251 ∧ s.decodeEnvelope.mem = s.mem.fill 0x200 f n := by
  obtain ⟨c, -, e⟩ | ⟨c, -, e⟩ | ⟨h5, h256, -, -, -, -, e⟩ := s.decodeEnvelope_cases <;> rw [e]
  · exact .inl rfl
  · exact .inl rfl
  · exact .inr ⟨s.rxLen.toNat - 5, _, by omega, rfl⟩

/-- What a completion does to the buffers, by its command byte. -/
theorem complete_mem {s t : State} (h : complete s = .next t) :
    t.mem = s.mem ∨
    ((s.op = 0x30 ∨ s.op = 0x60) ∧ ∃ n f, n ≤ 251 ∧ t.mem = s.mem.fill 0x200 f n) ∨
    (s.op = 0x40 ∧ ∃ n f c, n ≤ 255 ∧ t.mem = (s.mem.fill 0x100 f n).write (0x100 + n) c) ∨
    ((s.op = 0x50 ∨ s.op = 0x51) ∧ ∃ c, t.mem = s.mem.write 0x100 c) := by
  obtain ⟨i, hi, e⟩ | ⟨r, -, e⟩ := complete_cases s
  · have ho := decodeByte_inv hi
    rw [e] at h
    cases i with
    | calcSum =>
      obtain ⟨-, e⟩ | ⟨-, e⟩ := execCalc_cases s <;> cases e.symm.trans h <;> exact .inl rfl
    | check =>
      obtain ⟨-, e⟩ | ⟨-, e⟩ | ⟨-, -, e⟩ := execCheck_cases s <;> cases e.symm.trans h <;> exact .inl rfl
    | decode =>
      cases h
      exact (decodeEnvelope_mem s).imp id fun h => .inl ⟨.inl ho, h⟩
    | encode =>
      obtain ⟨c, -, e⟩ | ⟨-, -, hl, m, c, e, hm, -⟩ := execEncode_cases s <;> cases e.symm.trans h
      · exact .inl rfl
      · exact .inr (.inr (.inl ⟨ho, _, _, _, by omega, hm⟩))
    | ctrlAck =>
      cases h
      exact .inr (.inr (.inr ⟨.inl ho, _, rfl⟩))
    | ctrlNack =>
      cases h
      exact .inr (.inr (.inr ⟨.inr ho, _, rfl⟩))
    | recv =>
      obtain ⟨-, -, e⟩ | ⟨-, -, -, e⟩ | ⟨-, e⟩ := execRecv_cases s <;> cases e.symm.trans h
      · exact .inl rfl
      · exact .inl rfl
      · exact (decodeEnvelope_mem s).imp id fun h => .inl ⟨.inr ho, h⟩
  · cases e.symm.trans h
    exact .inl rfl

theorem complete_epoch {s t : State} (h : complete s = .next t) : t.epoch = s.epoch := by
  obtain ⟨t', h', e⟩ := complete_shape s
  cases h.symm.trans h'
  rw [e]

/-- The buffer bytes a completion leaves alone, by its command byte. -/
theorem complete_byteAt {s t : State} (h : complete s = .next t) (a : Nat)
    (h1 : s.op = 0x30 ∨ s.op = 0x60 → ¬(0x200 ≤ a ∧ a < 0x200 + 251))
    (h2 : s.op = 0x40 → ¬(0x100 ≤ a ∧ a < 0x200)) (h3 : s.op = 0x50 ∨ s.op = 0x51 → a ≠ 0x100) :
    t.byteAt a = s.byteAt a := by
  simp only [State.byteAt, complete_epoch h]
  rcases complete_mem h with e | ⟨o, n, f, hn, e⟩ | ⟨o, n, f, c, hn, e⟩ | ⟨o, c, e⟩ <;> rw [e]
  · have := h1 o
    rw [Memory.read_fill_outside _ _ (by omega)]
  · have := h2 o
    rw [Memory.read_write_other _ (by omega), Memory.read_fill_outside _ _ (by omega)]
  · rw [Memory.read_write_other _ (h3 o)]

/-- The registers a completion leaves alone, by its command byte. -/
theorem complete_regs {s t : State} (h : complete s = .next t) :
    (s.op ≠ 0x30 → s.op ≠ 0x60 →
      t.rxKind = s.rxKind ∧ t.msgType = s.msgType ∧ t.msgFid = s.msgFid ∧ t.msgPlen = s.msgPlen ∧ t.valid = s.valid ∧
        t.ppres = s.ppres ∧ t.msgCs = s.msgCs) ∧
    (s.op ≠ 0x40 → s.op ≠ 0x50 → s.op ≠ 0x51 → t.txLen = s.txLen) ∧
    (s.op ≠ 0x10 → s.op ≠ 0x20 → s.op ≠ 0x30 → s.op ≠ 0x60 → s.op ≠ 0x40 → t.chk = s.chk) := by
  have hd : s.decodeEnvelope.txLen = s.txLen := by
    obtain ⟨c, -, e⟩ | ⟨c, -, e⟩ | ⟨-, -, -, -, -, -, e⟩ := s.decodeEnvelope_cases <;> rw [e] <;> rfl
  obtain ⟨i, hi, e⟩ | ⟨r, -, e⟩ := complete_cases s
  · have ho := decodeByte_inv hi
    rw [e] at h
    cases i with
    | calcSum =>
      obtain ⟨-, e⟩ | ⟨-, e⟩ := execCalc_cases s <;> cases e.symm.trans h <;>
        exact ⟨fun _ _ => ⟨rfl, rfl, rfl, rfl, rfl, rfl, rfl⟩, fun _ _ _ => rfl, fun h => absurd ho h⟩
    | check =>
      obtain ⟨-, e⟩ | ⟨-, e⟩ | ⟨-, -, e⟩ := execCheck_cases s <;> cases e.symm.trans h <;>
        exact ⟨fun _ _ => ⟨rfl, rfl, rfl, rfl, rfl, rfl, rfl⟩, fun _ _ _ => rfl, fun _ h => absurd ho h⟩
    | decode =>
      cases h
      exact ⟨fun h => absurd ho h, fun _ _ _ => hd, fun _ _ h => absurd ho h⟩
    | encode =>
      obtain ⟨c, -, e⟩ | ⟨-, -, hl, m, c, e, hm, -⟩ := execEncode_cases s <;> cases e.symm.trans h <;>
        exact ⟨fun _ _ => ⟨rfl, rfl, rfl, rfl, rfl, rfl, rfl⟩, fun h => absurd ho h, fun _ _ _ _ h => absurd ho h⟩
    | ctrlAck =>
      cases h
      exact ⟨fun _ _ => ⟨rfl, rfl, rfl, rfl, rfl, rfl, rfl⟩, fun _ h => absurd ho h, fun _ _ _ _ _ => rfl⟩
    | ctrlNack =>
      cases h
      exact ⟨fun _ _ => ⟨rfl, rfl, rfl, rfl, rfl, rfl, rfl⟩, fun _ _ h => absurd ho h, fun _ _ _ _ _ => rfl⟩
    | recv =>
      refine ⟨fun _ h => absurd ho h, fun _ _ _ => ?_, fun _ _ _ h => absurd ho h⟩
      obtain ⟨-, -, e⟩ | ⟨-, -, -, e⟩ | ⟨-, e⟩ := execRecv_cases s <;> cases e.symm.trans h
      · rfl
      · rfl
      · exact hd
  · cases e.symm.trans h
    exact ⟨fun _ _ => ⟨rfl, rfl, rfl, rfl, rfl, rfl, rfl⟩, fun _ _ _ => rfl, fun _ _ _ _ _ => rfl⟩

/-! ## Runs -/

theorem run_succ {n : Nat} {s t : State} (h : step s = .next t) : core.run (n + 1) s = core.run n t := by
  have h' : core.step s = .next t := h
  have e := Host.Core.run.eq_2 core s n
  rw [h'] at e
  exact e

theorem run_one {s t : State} (h : step s = .next t) : core.run 1 s = .next t := run_succ h

theorem run_add {m n : Nat} {s t : State} (h : core.run m s = .next t) : core.run (m + n) s = core.run n t := by
  induction m generalizing s with
  | zero =>
    cases h
    rw [Nat.zero_add]
  | succ m ih =>
    have e := Host.Core.run.eq_2 core s m
    rw [e] at h
    cases hs : step s with
    | next u =>
      rw [show core.step s = .next u from hs] at h
      rw [Nat.add_right_comm, run_succ hs]
      exact ih h
    | fault r =>
      rw [show core.step s = .fault r from hs] at h
      cases h
    | refused r =>
      rw [show core.step s = .refused r from hs] at h
      cases h

/-- A host access to the window while a command is in flight changes nothing but `DONE` (never to 1), `HZ`, `IE`, the draws
and the host's log. -/
theorem step_busy_access {s : State} {op : HostOp} {rest : List Input} (hw : s.cfg.wf = true) (hb : s.busy = true)
    (he : s.err.toNat ≤ 10) (ho : opInWindow s.cfg op) (hi : s.inputs = .host op :: rest) :
    ∃ d hz ie dr log,
      step s = .next { s with inputs := rest, done := d, hz := hz, ie := ie, draws := dr, readLog := log } ∧
      (s.done = false → d = false) := by
  cases op with
  | rd a =>
    obtain ⟨off, rfl⟩ := busAddr_of_inWindow ho
    exact ⟨s.done, s.hz, s.ie, _, _, (step_rd hw hi).trans (hostRead_ok (s := { s with inputs := rest }) he _), id⟩
  | wr a v =>
    obtain ⟨off, rfl⟩ := busAddr_of_inWindow ho
    obtain ⟨d, hz, ie, e, hd⟩ := hostWrite_busy (s := { s with inputs := rest }) hb (locate off) v
    exact ⟨d, hz, ie, s.draws, s.readLog, (step_wr hw hi).trans (congrArg _ e), hd⟩

/-- `step_busy_access` for a run of accesses. -/
theorem run_busy_accesses {ops : List HostOp} {s : State} {rest : List Input} (hw : s.cfg.wf = true)
    (hb : s.busy = true) (he : s.err.toNat ≤ 10) (ho : ∀ op ∈ ops, opInWindow s.cfg op)
    (hi : s.inputs = ops.map .host ++ rest) :
    ∃ d hz ie dr log,
      core.run ops.length s =
        .next { s with inputs := rest, done := d, hz := hz, ie := ie, draws := dr, readLog := log } ∧
      (s.done = false → d = false) := by
  induction ops generalizing s with
  | nil =>
    refine ⟨s.done, s.hz, s.ie, s.draws, s.readLog, ?_, id⟩
    rw [← (show s.inputs = rest from hi)]
    rfl
  | cons op ops ih =>
    obtain ⟨d, hz, ie, dr, log, h1, hd⟩ :=
      step_busy_access hw hb he (ho op List.mem_cons_self) (rest := ops.map .host ++ rest) (by rw [hi]; rfl)
    obtain ⟨d', hz', ie', dr', log', h2, hd'⟩ :=
      ih (s :=
        { s with inputs := ops.map .host ++ rest, done := d, hz := hz, ie := ie, draws := dr, readLog := log })
        hw hb he (fun o h => ho o (List.mem_cons_of_mem _ h)) rfl
    refine ⟨d', hz', ie', dr', log', ?_, fun h => hd' (hd h)⟩
    rw [List.length_cons, run_succ h1]
    exact h2

/-! ## Offsets and write sets -/

theorem offset_eq {off : Offset} {n : Nat} (h : off.toNat = n) : off = BitVec.ofNat 12 n := by
  rw [← h, BitVec.ofNat_toNat, BitVec.setWidth_eq]

/-- Every offset is a buffer byte's, a register's or reserved. -/
theorem offset_cases (off : Offset) :
    off.toNat < 0x300 ∨ (∃ r : Reg, off = BitVec.ofNat 12 r.offset ∧ locate off = .reg r ∧ off.toNat = r.offset) ∨
      0x30F ≤ off.toNat := by
  by_cases h1 : off.toNat < 0x300
  · exact .inl h1
  by_cases h2 : 0x30F ≤ off.toNat
  · exact .inr (.inr h2)
  have all : ∀ k, k < 15 → ∃ r ∈ Reg.table, 0x300 + k = r.offset := by decide
  obtain ⟨r, -, hr⟩ := all (off.toNat - 0x300) (by omega)
  have hr' : off.toNat = r.offset := by omega
  have e := offset_eq hr'
  exact .inr (.inl ⟨r, e, by rw [e]; exact locate_reg r, hr'⟩)

/-- `CMD`, `CTRL` and the reserved offsets are in no write set. -/
theorem inWriteSet_false (op : Byte) :
    inWriteSet op (.reg .cmd) = false ∧ inWriteSet op (.reg .ctrl) = false ∧ inWriteSet op .reserved = false := by
  simp only [inWriteSet]
  cases decodeByte op with
  | error r => exact ⟨rfl, rfl, rfl⟩
  | ok i => cases i <;> exact ⟨rfl, rfl, rfl⟩

end Sys2Proof.Machine
end

