-- ==== Sys2Proof/Laws/PerInstr.lean ====
section
/-! SUPPORT. The family `CommandByte`: every command is one byte whose fields pass the checks of 30_encoding.md R80. -/

namespace Sys2Proof.Laws.CommandByte

/-- The command's words are one byte, and the byte's fields are well-formed. -/
def Statement (i : Instr) : Prop := (encode i).length = 1 ∧ (Cmd8.ofByte (encodeByte i)).wf = true

theorem calcSum : Statement .calcSum := ⟨rfl, by decide⟩
theorem check : Statement .check := ⟨rfl, by decide⟩
theorem decode : Statement .decode := ⟨rfl, by decide⟩
theorem encode : Statement .encode := ⟨rfl, by decide⟩
theorem ctrlAck : Statement .ctrlAck := ⟨rfl, by decide⟩
theorem ctrlNack : Statement .ctrlNack := ⟨rfl, by decide⟩
theorem recv : Statement .recv := ⟨rfl, by decide⟩

end Sys2Proof.Laws.CommandByte
end

