-- ==== Sys2Proof/Tests/Slice0.lean ====
section
/-! SUPPORT. Tests from the spec's vectors (95_test_vectors.md; each test names its vector), the smoke test of the checks, and
for every obligation with hypotheses states that meet them, clause by clause at the ends of their ranges. -/

namespace Sys2Proof.Tests

open Machine

/-! ## Small states -/

/-- Bytes from an offset on. -/
def bytesAt (base : Nat) : List Byte → Memory
  | [] => []
  | b :: rest => (base, b) :: bytesAt (base + 1) rest

/-- Reset, with these bytes in `RX` and their number in `RX_LEN`. -/
def rxState (frame : List Byte) : State :=
  { State.reset with mem := bytesAt 0 frame, rxLen := BitVec.ofNat 9 frame.length }

/-- Reset, with `n` in `RX_LEN` and no byte written. -/
def lenState (n : Nat) : State := { State.reset with rxLen := BitVec.ofNat 9 n }

/-- Reset, with the bytes `f 0 .. f (n-1)` in `RX` and `n` in `RX_LEN`. -/
def frameState (f : Nat → Byte) (n : Nat) : State :=
  { State.reset with mem := Memory.fill [] 0 f n, rxLen := BitVec.ofNat 9 n }

/-- Reset, with the message registers written and the payload in `PAY`. -/
def msgState (ty : BitVec 1) (fid plen : Byte) (valid ppres : Bool) (pay : List Byte) : State :=
  { State.reset with
    msgType := ty, msgFid := fid, msgPlen := plen, valid := valid, ppres := ppres, mem := bytesAt 0x200 pay }

/-- A command byte in flight. -/
def inFlight (s : State) (b : Byte) : State := { s with op := b, busy := true, done := false }

/-- A host write at a window offset, as the next event. -/
def willWrite (s : State) (off : Offset) (v : Byte) : State := { s with inputs := [.host (.wr (busAddr s.cfg off) v)] }

/-- A host read at a window offset, as the next event. -/
def willRead (s : State) (off : Offset) : State := { s with inputs := [.host (.rd (busAddr s.cfg off))] }

/-- The result is a next state with a property. -/
def answers (r : Result) (p : State → Bool) : Bool :=
  match r with
  | .next t => p t
  | _ => false

/-- Scenario A (L1-7). -/
def scenarioA : List Byte := [0x01, 0x06, 0x01, 0x03, 0xAC, 0xFE, 0xFF, 0x56]

/-- The 256-byte frame of EN-8 and DE-13. -/
def frameEN8 (i : Nat) : Byte :=
  if i = 0 then 0x01 else if i = 1 then 0xFE else if i = 2 then 0x01 else if i = 3 then 0xFF
  else if i = 255 then 0x04 else BitVec.ofNat 8 (i - 4)

theorem frameState_rx {f : Nat → Byte} {n i : Nat} (h : i < n) : (frameState f n).rx i = f i := by
  show Memory.read (Memory.fill [] 0 f n) 0 (0 + i) = _
  rw [Memory.read_fill_inside [] f (Nat.zero_le _) (by omega)]
  simp

theorem frameState_ck {f : Nat → Byte} {n b : Nat} (h : b ≤ n) : ck (frameState f n).rx 1 b = ck f 1 b :=
  ck_congr fun _ _ h2 => frameState_rx (by omega)

/-! ## The checks refuse ill-formed terms -/

theorem smoke_opc_zero : Cmd8.wf { opc := 0, z := 0, k := 0 } = false := by decide
theorem smoke_opc_seven : Cmd8.wf { opc := 7, z := 0, k := 0 } = false := by decide
theorem smoke_z : Cmd8.wf { opc := 3, z := 1, k := 0 } = false := by decide
theorem smoke_k : Cmd8.wf { opc := 1, z := 0, k := 1 } = false := by decide
theorem smoke_good : Cmd8.wf { opc := 5, z := 0, k := 1 } = true := by decide
theorem smoke_start_ack : Config.wf { start := 6, ack := 6, nack := 0x15, base := 0 } = false := by decide
theorem smoke_start_nack : Config.wf { start := 0x15, ack := 6, nack := 0x15, base := 0 } = false := by decide
theorem smoke_ack_nack : Config.wf { start := 1, ack := 0x15, nack := 0x15, base := 0 } = false := by decide
theorem smoke_default : Config.wf Config.default = true := by decide

/-! ## Decoding: the bytes written out from R80 and R84 (OPC, Z, K) -/

theorem test_decode_calc : decode [0b0001_000_0] = .ok (.calcSum, []) := rfl
theorem test_decode_check : decode [0b0010_000_0] = .ok (.check, []) := rfl
theorem test_decode_decode : decode [0b0011_000_0] = .ok (.decode, []) := rfl
theorem test_decode_encode : decode [0b0100_000_0] = .ok (.encode, []) := rfl
theorem test_decode_ctrlAck : decode [0b0101_000_0] = .ok (.ctrlAck, []) := rfl
theorem test_decode_ctrlNack : decode [0b0101_000_1] = .ok (.ctrlNack, []) := rfl
theorem test_decode_recv : decode [0b0110_000_0] = .ok (.recv, []) := rfl

/-- IL-1 to IL-7. -/
theorem test_decode_illegal :
    decodeByte 0x00 = .error .unassignedOpc ∧ decodeByte 0x11 = .error .strayK ∧ decodeByte 0x12 = .error .nonzeroZ ∧
    decodeByte 0x52 = .error .nonzeroZ ∧ decodeByte 0x61 = .error .strayK ∧ decodeByte 0x70 = .error .unassignedOpc ∧
    decodeByte 0xFF = .error .nonzeroZ := ⟨rfl, rfl, rfl, rfl, rfl, rfl, rfl⟩

theorem test_decodeTableWord :
    [0x10, 0x20, 0x30, 0x40, 0x50, 0x51, 0x60].map (decodeTableWord 8) =
      [some .calcSum, some .check, some .decode, some .encode, some .ctrlAck, some .ctrlNack, some .recv] := by decide

/-- The step after `withFetchWord` runs the word's command, from reset (RS-2, RS-3, RS-4, CT-1, CT-2 and CH-10). -/
theorem test_first_command :
    [0x10, 0x20, 0x30, 0x40, 0x50, 0x51, 0x60].map (fun w => answers (step (State.reset.withFetchWord 8 w)) fun t =>
      t.done && decide (t.err = (if w = 0x10 ∨ w = 0x50 ∨ w = 0x51 then 0 else if w = 0x40 then 7 else 1))) =
      [true, true, true, true, true, true, true] := by decide

/-! ## One step each -/

/-- CK-6: the trailing checksum byte included, the sum is 0. -/
theorem test_calc_inverse : answers (exec .calcSum (rxState [0x06, 0x01, 0x03, 0xAC, 0xFE, 0xFF, 0x56])) (fun t =>
    decide (t.chk = 0x00) && decide (t.err = 0) && t.result) = true := by decide

/-- CK-8: `RANGE` leaves `CHK`. -/
theorem test_calc_range : answers (exec .calcSum { lenState 257 with chk := 0x33 }) (fun t =>
    decide (t.chk = 0x33) && decide (t.err = 6) && !t.result) = true := by decide

/-- CH-2: a mismatch is a result, not an error. -/
theorem test_check_mismatch : answers (exec .check (rxState [0x01, 0x06, 0x01, 0x03, 0xAC, 0xFE, 0xFF, 0x57])) (fun t =>
    decide (t.chk = 0x56) && decide (t.err = 0) && !t.result) = true := by decide

/-- CH-5: the start byte is not covered. -/
theorem test_check_start : answers (exec .check (rxState [0xAA, 0x03, 0x00, 0x10, 0xEC])) (fun t =>
    decide (t.chk = 0xEC) && decide (t.err = 0) && t.result) = true := by decide

/-- DE-1. -/
theorem test_decode_scenarioA : answers (exec .decode (rxState scenarioA)) (fun t =>
    decide (t.err = 0) && t.result && decide (t.rxKind = .envelope) && decide (t.chk = 0x56) && decide (t.msgType = 1) &&
    decide (t.msgFid = 0x03) && decide (t.msgPlen = 3) && decide (t.msgCs = 0x56) && decide (t.flagsByte = 0x03) &&
    decide ([t.pay 0, t.pay 1, t.pay 2] = [0xAC, 0xFE, 0xFF])) = true := by decide

/-- DE-9: a bad checksum wins over a bad type. -/
theorem test_decode_order : answers (exec .decode (rxState [0x01, 0x03, 0x02, 0x10, 0xEF])) (fun t =>
    decide (t.err = 4) && decide (t.chk = 0xEE) && !t.valid) = true := by decide

/-- RV-4: a control byte counts only in a one-byte buffer. -/
theorem test_recv_two : answers (exec .recv (rxState [0x06, 0x06])) (fun t =>
    decide (t.err = 1) && decide (t.rxKind = .none) && !t.result) = true := by decide

/-- RV-9: a NACK leaves the message and `CHK`. -/
theorem test_recv_nack : answers (exec .recv { rxState [0x15] with chk := 0x56, msgFid := 3, valid := true }) (fun t =>
    decide (t.err = 0) && t.result && decide (t.rxKind = .nack) && decide (t.chk = 0x56) && decide (t.msgFid = 3) &&
    t.valid) = true := by decide

/-- EN-11: a stale `MSG_CS` is ignored. -/
theorem test_encode_scenarioA : answers (exec .encode (msgState 1 0x03 3 true true [0xAC, 0xFE, 0xFF])) (fun t =>
    decide (t.err = 0) && decide (t.txLen = 8) && decide (t.chk = 0x56) &&
    decide ((List.range 8).map t.tx = scenarioA)) = true := by decide

/-- EN-7: an inconsistent payload wins over a long one. -/
theorem test_encode_order : answers (exec .encode (msgState 0 0x20 252 true false [])) (fun t =>
    decide (t.err = 8) && decide (t.txLen = 0) && !t.result) = true := by decide

/-- CT-1. -/
theorem test_ctrlAck : answers (exec .ctrlAck State.reset) (fun t =>
    decide (t.err = 0) && t.result && decide (t.tx 0 = 0x06) && decide (t.txLen = 1) && decide (t.chk = 0)) = true := by
  decide

/-- CT-4: the rest of `TX` and `CHK` stay. -/
theorem test_ctrlNack : answers (exec .ctrlNack
    { State.reset with mem := bytesAt 0x100 [0x01, 0x05, 0x00, 0x20, 0x01, 0x02, 0xD9], txLen := 7, chk := 0xD9 }) (fun t =>
    decide ((List.range 7).map t.tx = [0x15, 0x05, 0x00, 0x20, 0x01, 0x02, 0xD9]) && decide (t.txLen = 1) &&
    decide (t.chk = 0xD9)) = true := by decide

/-- IL-8: an illegal byte leaves `CHK` and `RX_KIND`. -/
theorem test_illegal : answers (step (inFlight { State.reset with chk := 0x56, rxKind := .envelope } 0x3F)) (fun t =>
    decide (t.err = 10) && t.done && !t.busy && decide (t.chk = 0x56) && decide (t.rxKind = .envelope)) = true := by decide

/-- HZ-3 and HZ-4: `STATUS` and `CTRL` are written at once while busy. -/
theorem test_busy_honoured :
    answers (step (willWrite { inFlight State.reset 0x30 with hz := true } 0x301 0x08)) (fun t => !t.hz && t.busy) = true ∧
    answers (step (willWrite (inFlight State.reset 0x30) 0x303 0x01)) (fun t => t.ie && !t.hz) = true := by decide

/-- HZ-5: a reserved and a read-only location. -/
theorem test_busy_reserved :
    answers (step (willWrite (inFlight State.reset 0x30) 0x400 0x55)) (fun t => !t.hz) = true ∧
    answers (step (willWrite (inFlight State.reset 0x30) 0x30D 0x55)) (fun t => !t.hz && decide (t.chk = 0)) = true := by
  decide

/-- HZ-7: bit 8 of `RX_LEN` is kept. -/
theorem test_rxlen_low : answers (step (willWrite (lenState 257) 0x304 0x01)) (fun t => decide (t.rxLen = 257)) = true := by
  decide

/-- IQ-4: acceptance clears `DONE` and the interrupt. -/
theorem test_accept_clears_done : answers (step (willWrite { State.reset with ie := true, done := true } 0x300 0x10))
    (fun t => !t.done && !t.irq && t.busy) = true := by decide

/-- RS-5: a reset abandons the command in flight. -/
theorem test_reset_in_flight : answers (step { inFlight (rxState scenarioA) 0x30 with inputs := [.reset] }) (fun t =>
    !t.busy && !t.done && decide (t.rxLen = 0) && decide (t.mem = [])) = true := by decide

/-- P1, lines 1, 5, 11, 12, 18 and 23. -/
theorem test_words :
    [Line.wr 0x000 0x01, .wr 0x004 0xAC, cmdLine .recv, .rd 0x301, .rd 0x200, .rd 0x30D].map Line.word =
      [0x800001, 0x8004AC, 0x830060, 0x030100, 0x020000, 0x030D00] := by decide

/-- R88: `setrxlen 8` and `ldrx 01, 06`, as P1 lines 1, 2, 9 and 10. -/
theorem test_pseudo : (ldrxLines [0x01, 0x06] ++ setRxLenLines 8).map Line.word =
    [0x800001, 0x800106, 0x830408, 0x830500] := by decide

/-! ## Witnesses: states that meet the hypotheses of the obligations -/

/-- A second configuration, with the window elsewhere. -/
def cfg2 : Config := { start := 0x02, ack := 0x07, nack := 0x16, base := 0x1000 }

theorem witness_IllegalCommandBytes :
    (¬∃ i, decodeByte 0x70 = .ok i) ∧ ((0x12 : Byte).toNat / 2 % 8 ≠ 0) ∧
    ((0x11 : Byte).toNat % 2 = 1 ∧ (0x11 : Byte).toNat / 16 ≠ 5) ∧
    State.reset.cfg.wf = true ∧ State.reset.busy = false := by
  refine ⟨?_, by decide, by decide, by decide, rfl⟩
  rintro ⟨i, h⟩
  cases h

theorem witness_StepRunsDecodedCommand :
    (inFlight State.reset 0x30).cfg.wf = true ∧ (inFlight State.reset 0x30).busy = true ∧
    decodeByte (inFlight State.reset 0x30).op = .ok .decode ∧ (inFlight State.reset 0x30).inputs = [] ∧
    ({ inFlight State.reset 0x30 with inputs := [.engine, .reset] } : State).inputs = .engine :: [.reset] :=
  ⟨rfl, rfl, rfl, rfl, rfl⟩

theorem witness_FetchWordRunsNext : State.reset.cfg.wf = true ∧ decodeByte (BitVec.ofNat 8 0x51) = .ok .ctrlNack := ⟨rfl, rfl⟩

theorem witness_CommandAcceptance :
    (willWrite State.reset 0x300 0x70).cfg.wf = true ∧ (willWrite State.reset 0x300 0x70).busy = false ∧
    (willWrite State.reset 0x300 0x70).inputs =
      .host (.wr (busAddr (willWrite State.reset 0x300 0x70).cfg 0x300) 0x70) :: [] := ⟨rfl, rfl, rfl⟩

theorem witness_CommandAcceptance_ops : ∃ s : State, s.cfg.wf = true ∧ s.busy = false ∧ s.err.toNat ≤ 10 ∧
    (∀ op ∈ [HostOp.rd 0xFFF], opInWindow s.cfg op) ∧
    s.inputs = .host (.wr (busAddr s.cfg 0x300) 0x30) :: ([HostOp.rd 0xFFF].map .host ++ []) := by
  refine ⟨{ State.reset with inputs := [.host (.wr 0x300 0x30), .host (.rd 0xFFF)] }, rfl, rfl, Nat.zero_le _, ?_, rfl⟩
  intro op h
  simp only [List.mem_singleton] at h
  subst h
  exact ⟨Nat.zero_le _, (by decide : 0xFFF < 0 + 0x1000)⟩

theorem witness_BusyCommandWriteIgnored :
    (willWrite (inFlight State.reset 0x30) 0x300 0x40).cfg.wf = true ∧
    (willWrite (inFlight State.reset 0x30) 0x300 0x40).busy = true ∧
    (willWrite (inFlight State.reset 0x30) 0x300 0x40).inputs =
      .host (.wr (busAddr State.reset.cfg 0x300) 0x40) :: [] := ⟨rfl, rfl, rfl⟩

theorem witness_IdleEngineDoesNothing :
    State.reset.cfg.wf = true ∧ State.reset.busy = false ∧ State.reset.inputs = [] ∧
    ({ State.reset with inputs := [.engine] } : State).inputs = .engine :: [] := ⟨rfl, rfl, rfl, rfl⟩

/-- Every clause of `BusyWriteHazard` at the ends of its range, and no offset in two clauses or in none. -/
theorem witness_BusyWriteHazard :
    (∀ off v, (willWrite (inFlight State.reset 0x30) off v).cfg.wf = true ∧
      (willWrite (inFlight State.reset 0x30) off v).busy = true ∧
      (willWrite (inFlight State.reset 0x30) off v).inputs =
        .host (.wr (busAddr (willWrite (inFlight State.reset 0x30) off v).cfg off) v) :: []) ∧
    (∀ n ∈ [0x000, 0x2FF, 0x300, 0x304, 0x305, 0x308, 0x30C],
      n ≤ 0x300 ∨ n = 0x304 ∨ n = 0x305 ∨ (0x308 ≤ n ∧ n ≤ 0x30C)) ∧
    (∀ n ∈ [0x302, 0x306, 0x307, 0x30D, 0xFFF], n = 0x302 ∨ n = 0x306 ∨ n = 0x307 ∨ 0x30D ≤ n) := by
  refine ⟨fun off v => ⟨rfl, rfl, rfl⟩, by decide, by decide⟩

theorem busyWrite_clauses_are_exclusive (n : Nat) :
    ((n ≤ 0x300 ∨ n = 0x304 ∨ n = 0x305 ∨ (0x308 ≤ n ∧ n ≤ 0x30C)) ∨ n = 0x301 ∨ n = 0x303 ∨
      (n = 0x302 ∨ n = 0x306 ∨ n = 0x307 ∨ 0x30D ≤ n)) ∧
    ¬((n ≤ 0x300 ∨ n = 0x304 ∨ n = 0x305 ∨ (0x308 ≤ n ∧ n ≤ 0x30C)) ∧
      (n = 0x301 ∨ n = 0x303 ∨ n = 0x302 ∨ n = 0x306 ∨ n = 0x307 ∨ 0x30D ≤ n)) ∧
    ¬((n = 0x301 ∨ n = 0x303) ∧ (n = 0x302 ∨ n = 0x306 ∨ n = 0x307 ∨ 0x30D ≤ n)) := by omega

/-- The hypotheses of the statements on host writes and reads while idle, at every offset (`IdleRegisterWrites`,
`IdleBufferWrites`, `IdleReads`, `CmdReadsZero`, `NoCommandWritesReceiveBuffer`); their ranges meet the boundaries below. -/
theorem witness_IdleRegisterWrites (off : Offset) (v : Byte) :
    (willWrite State.reset off v).cfg.wf = true ∧ (willWrite State.reset off v).busy = false ∧
    (willWrite State.reset off v).inputs = .host (.wr (busAddr (willWrite State.reset off v).cfg off) v) :: [] :=
  ⟨rfl, rfl, rfl⟩

theorem witness_IdleBufferWrites : (0x000 : Offset).toNat < 0x300 ∧ (0x2FF : Offset).toNat < 0x300 ∧
    ¬(0x300 : Offset).toNat < 0x300 := by decide

theorem witness_BufferReadReturnsLastWrite : ∃ s : State, s.cfg.wf = true ∧ s.busy = false ∧
    s.inputs = .host (.wr (busAddr s.cfg 0x2FF) 0xAB) :: .host (.rd (busAddr s.cfg 0x2FF)) :: [] :=
  ⟨{ State.reset with inputs := [.host (.wr 0x2FF 0xAB), .host (.rd 0x2FF)] }, rfl, rfl, rfl⟩

theorem witness_IdleReads (off : Offset) :
    (willRead State.reset off).cfg.wf = true ∧ (willRead State.reset off).busy = false ∧
    (willRead State.reset off).err.toNat ≤ 10 ∧
    (willRead State.reset off).inputs = .host (.rd (busAddr (willRead State.reset off).cfg off)) :: [] :=
  ⟨rfl, rfl, Nat.zero_le _, rfl⟩

theorem witness_IdleReads_ranges : (0x2FF : Offset).toNat < 0x300 ∧ (0x30E : Offset).toNat = 0x30E ∧
    0x30F ≤ (0x30F : Offset).toNat ∧ 0x30F ≤ (0xFFF : Offset).toNat := by decide

theorem witness_CmdReadsZero : (willRead (inFlight State.reset 0x30) 0x300).cfg.wf = true ∧
    (willRead (inFlight State.reset 0x30) 0x300).inputs = .host (.rd (busAddr State.reset.cfg 0x300)) :: [] := ⟨rfl, rfl⟩

/-- `ReadHazard`: a `DECODE` of Scenario A, one ignored write while it is in flight, then a read (HZ-8, HZ-9): `MSG_FID` and
the last `PAY` byte a decode may touch are in the write set; `STATUS` has a clause of its own; `CTRL`, `TX_LEN` and
`PAY[252]` are outside. -/
theorem witness_ReadHazard (off : Offset) : ∃ s : State, s.cfg.wf = true ∧ s.busy = false ∧ s.err.toNat ≤ 10 ∧
    (∀ op ∈ [HostOp.wr 0x309 0x77], opInWindow s.cfg op) ∧
    s.inputs = .host (.wr (busAddr s.cfg 0x300) 0x30) ::
      ([HostOp.wr 0x309 0x77].map .host ++ .host (.rd (busAddr s.cfg off)) :: []) := by
  refine ⟨{ rxState scenarioA with
    inputs := [.host (.wr 0x300 0x30), .host (.wr 0x309 0x77), .host (.rd (busAddr Config.default off))] },
    rfl, rfl, Nat.zero_le _, ?_, rfl⟩
  intro op h
  simp only [List.mem_singleton] at h
  subst h
  exact ⟨Nat.zero_le _, (by decide : 0x309 < 0 + 0x1000)⟩

theorem witness_ReadHazard_sets :
    writeSetOffset 0x30 0x309 ∧ writeSetOffset 0x60 (0x200 + 251) ∧ writeSetOffset 0x00 0x302 ∧
    writeSetOffset 0x40 0x1FF ∧ writeSetOffset 0x51 0x100 ∧ writeSetOffset 0x10 0x30D ∧
    ¬writeSetOffset 0x30 0x303 ∧ ¬writeSetOffset 0x30 0x307 ∧ ¬writeSetOffset 0x30 (0x200 + 252) ∧
    ¬writeSetOffset 0x50 0x101 ∧ ¬writeSetOffset 0x70 0x30D := by
  simp [writeSetOffset]

theorem witness_StatusPollIsExact : ∃ s t : State, s.cfg.wf = true ∧ s.busy = false ∧
    s.inputs = .host (.wr (busAddr s.cfg 0x300) 0x10) :: .host (.rd (busAddr s.cfg 0x301)) :: [] ∧
    t.cfg.wf = true ∧ t.busy = false ∧
    t.inputs = .host (.wr (busAddr t.cfg 0x300) 0x10) :: .engine :: .host (.rd (busAddr t.cfg 0x301)) :: [] :=
  ⟨{ State.reset with inputs := [.host (.wr 0x300 0x10), .host (.rd 0x301)] },
    { State.reset with inputs := [.host (.wr 0x300 0x10), .engine, .host (.rd 0x301)] }, rfl, rfl, rfl, rfl, rfl, rfl⟩

/-- The smallest run whose last byte is the checksum of the ones before (n = 2), Scenario A (n = 8), and empty ranges. -/
theorem witness_ChecksumLaws :
    (2 ≤ 2 ∧ (fun i => if i = 1 then 0xFF else 0x01 : Nat → Byte) (2 - 1) =
      ck (fun i => if i = 1 then 0xFF else 0x01) 1 (2 - 1)) ∧
    (2 ≤ 8 ∧ (rxState scenarioA).rx (8 - 1) = ck (rxState scenarioA).rx 1 (8 - 1)) ∧ (0 ≤ 0 ∧ 0 ≤ 0) := by decide

theorem witness_CalcResult : (lenState 0).rxLen.toNat ≤ 256 ∧ (lenState 256).rxLen.toNat ≤ 256 ∧
    256 < (lenState 257).rxLen.toNat ∧ 256 < (lenState 511).rxLen.toNat := by decide

theorem witness_CheckResult : 256 < (lenState 257).rxLen.toNat ∧ (lenState 4).rxLen.toNat < 5 ∧
    5 ≤ (lenState 5).rxLen.toNat ∧ 5 ≤ (lenState 256).rxLen.toNat ∧ (lenState 256).rxLen.toNat ≤ 256 := by decide

/-- DE-2: the smallest frame. -/
theorem witness_DecodeValidEnvelope_5 :
    (rxState [0x01, 0x03, 0x00, 0x10, 0xEC]).rxLen.toNat = 5 ∧
    (rxState [0x01, 0x03, 0x00, 0x10, 0xEC]).rx 0 = (rxState [0x01, 0x03, 0x00, 0x10, 0xEC]).cfg.start ∧
    ((rxState [0x01, 0x03, 0x00, 0x10, 0xEC]).rx 1).toNat = 5 - 2 ∧
    ck (rxState [0x01, 0x03, 0x00, 0x10, 0xEC]).rx 1 (5 - 1) = (rxState [0x01, 0x03, 0x00, 0x10, 0xEC]).rx (5 - 1) ∧
    (rxState [0x01, 0x03, 0x00, 0x10, 0xEC]).rx 2 = 0x00 := by decide

set_option maxRecDepth 4000 in
theorem frameEN8_ck : ck frameEN8 1 255 = 0x04 := by decide

/-- DE-13: the largest frame, of the other type. -/
theorem witness_DecodeValidEnvelope_256 :
    (frameState frameEN8 256).rxLen.toNat = 256 ∧
    (frameState frameEN8 256).rx 0 = (frameState frameEN8 256).cfg.start ∧
    ((frameState frameEN8 256).rx 1).toNat = 256 - 2 ∧
    ck (frameState frameEN8 256).rx 1 (256 - 1) = (frameState frameEN8 256).rx (256 - 1) ∧
    (frameState frameEN8 256).rx 2 = 0x01 := by
  rw [frameState_ck (by decide), frameState_rx (by decide), frameState_rx (by decide), frameState_rx (by decide),
    frameState_rx (by decide), frameEN8_ck]
  decide

/-- The clauses of `DecodeFailures`: DE-4, DE-5, DE-6, DE-12, DE-11, DE-7, DE-8. -/
theorem witness_DecodeFailures_early :
    (rxState [0x01, 0x02, 0x00, 0x10]).rxLen.toNat < 5 ∧
    (5 ≤ (rxState [0x02, 0x03, 0x00, 0x10, 0xEC]).rxLen.toNat ∧
      (rxState [0x02, 0x03, 0x00, 0x10, 0xEC]).rx 0 ≠ (rxState [0x02, 0x03, 0x00, 0x10, 0xEC]).cfg.start) ∧
    (5 ≤ (rxState [0x01, 0x04, 0x00, 0x10, 0xEB]).rxLen.toNat ∧
      (rxState [0x01, 0x04, 0x00, 0x10, 0xEB]).rx 0 = (rxState [0x01, 0x04, 0x00, 0x10, 0xEB]).cfg.start ∧
      ((rxState [0x01, 0x04, 0x00, 0x10, 0xEB]).rx 1).toNat ≠
        (rxState [0x01, 0x04, 0x00, 0x10, 0xEB]).rxLen.toNat - 2) := by decide

theorem witness_DecodeFailures_long :
    258 ≤ (lenState 258).rxLen.toNat ∧
    (∃ s : State, s.rxLen.toNat = 257 ∧ s.rx 0 = s.cfg.start ∧ (s.rx 1).toNat = 257 - 2) :=
  ⟨by decide, { rxState [0x01, 0xFF] with rxLen := 257 }, by decide, by decide, by decide⟩

theorem witness_DecodeFailures_late :
    (∃ s : State, s.rxLen.toNat = 8 ∧ s.rx 0 = s.cfg.start ∧ (s.rx 1).toNat = 8 - 2 ∧
      ck s.rx 1 (8 - 1) ≠ s.rx (8 - 1)) ∧
    (∃ s : State, s.rxLen.toNat = 5 ∧ s.rx 0 = s.cfg.start ∧ (s.rx 1).toNat = 5 - 2 ∧
      ck s.rx 1 (5 - 1) = s.rx (5 - 1) ∧ s.rx 2 ≠ 0x00 ∧ s.rx 2 ≠ 0x01) :=
  ⟨⟨rxState [0x01, 0x06, 0x01, 0x03, 0xAC, 0xFE, 0xFF, 0x57], by decide⟩,
    ⟨rxState [0x01, 0x03, 0x02, 0x10, 0xEE], by decide⟩⟩

/-- `DecodeReadsFrameOnly`: a byte past the frame differs (DE-17). -/
theorem witness_DecodeReadsFrameOnly :
    (∀ i, i < min (rxState scenarioA).rxLen.toNat 256 →
      ({ rxState scenarioA with mem := bytesAt 0 (scenarioA ++ [0xEC]) } : State).rx i = (rxState scenarioA).rx i) ∧
    bytesAt 0 (scenarioA ++ [0xEC]) ≠ (rxState scenarioA).mem := by
  have h : min (rxState scenarioA).rxLen.toNat 256 = 8 := by decide
  rw [h]
  decide

/-- RV-1, RV-2, RV-3. -/
theorem witness_RecvResult :
    ((rxState [0x06]).rxLen.toNat = 1 ∧ (rxState [0x06]).rx 0 = (rxState [0x06]).cfg.ack) ∧
    ((rxState [0x15]).rxLen.toNat = 1 ∧ (rxState [0x15]).rx 0 ≠ (rxState [0x15]).cfg.ack ∧
      (rxState [0x15]).rx 0 = (rxState [0x15]).cfg.nack) ∧
    ¬((rxState [0x01]).rxLen.toNat = 1 ∧
      ((rxState [0x01]).rx 0 = (rxState [0x01]).cfg.ack ∨ (rxState [0x01]).rx 0 = (rxState [0x01]).cfg.nack)) := by decide

/-- EN-2 (L = 0) and EN-8's registers (L = 251): the hypotheses of `EncodeValidMessage` and `EncodeThenDecodeRoundTrip`. -/
theorem witness_EncodeValidMessage :
    ((msgState 0 0x10 0 true false []).msgPlen.toNat = 0 ∧ (msgState 0 0x10 0 true false []).valid = true ∧
      (msgState 0 0x10 0 true false []).ppres = decide (0 < 0)) ∧
    ((msgState 1 0xFF 251 true true []).msgPlen.toNat = 251 ∧ (msgState 1 0xFF 251 true true []).valid = true ∧
      (msgState 1 0xFF 251 true true []).ppres = decide (0 < 251) ∧ 251 ≤ 251) := by decide

/-- EN-3, EN-4, EN-5, EN-6. -/
theorem witness_EncodeFailures :
    (msgState 0 0x10 0 false false []).valid = false ∧
    ((msgState 0 0x20 1 true false [1]).valid = true ∧ (msgState 0 0x20 1 true false [1]).ppres = false ∧
      0 < (msgState 0 0x20 1 true false [1]).msgPlen.toNat) ∧
    ((msgState 0 0x20 0 true true []).valid = true ∧ (msgState 0 0x20 0 true true []).ppres = true ∧
      (msgState 0 0x20 0 true true []).msgPlen.toNat = 0) ∧
    ((msgState 0 0x20 252 true true []).valid = true ∧ (msgState 0 0x20 252 true true []).ppres = true ∧
      251 < (msgState 0 0x20 252 true true []).msgPlen.toNat) := by decide

/-- EN-2. -/
theorem witness_EncodedFrameHasWireFormat :
    ∃ t, exec .encode (msgState 0 0x10 0 true false []) = .next t ∧ t.result = true := ⟨_, rfl, rfl⟩

/-- Program P2: the frame of EN-1 in the receive buffer. -/
theorem witness_EncodeThenDecodeRoundTrip :
    ∃ t, exec .encode (msgState 0 0x20 2 true true [0x01, 0x02]) = .next t ∧
      (rxState [0x01, 0x05, 0x00, 0x20, 0x01, 0x02, 0xD9]).cfg = (msgState 0 0x20 2 true true [0x01, 0x02]).cfg ∧
      (rxState [0x01, 0x05, 0x00, 0x20, 0x01, 0x02, 0xD9]).rxLen = t.txLen ∧
      ∀ k, k < 7 → (rxState [0x01, 0x05, 0x00, 0x20, 0x01, 0x02, 0xD9]).rx k = t.tx k := by
  refine ⟨_, rfl, rfl, rfl, ?_⟩
  decide

/-- DE-2. -/
theorem witness_DecodeThenEncodeRoundTrip :
    ∃ t, exec .decode (rxState [0x01, 0x03, 0x00, 0x10, 0xEC]) = .next t ∧ t.result = true := ⟨_, rfl, by decide⟩

theorem witness_NoCommandWritesReceiveBuffer :
    (∃ t, complete (inFlight State.reset 0x51) = .next t) ∧ (0x0FF : Offset).toNat < 0x100 := ⟨⟨_, rfl⟩, by decide⟩

theorem witness_CompletionStaysInWriteSet :
    (∃ t, complete (inFlight State.reset 0x50) = .next t) ∧ (0x101 : Offset) ≠ 0x301 ∧
    ¬writeSetOffset (inFlight State.reset 0x50).op (0x101 : Offset).toNat := by
  refine ⟨⟨_, rfl⟩, by decide, ?_⟩
  unfold writeSetOffset
  decide

/-- A byte of the payload tail differs. -/
theorem witness_PayloadTailIsPlainStorage (a : Nat) (h : a < 0x200 + 252) :
    ({ State.reset with mem := [(0x2FC, 0x55)] } : State).byteAt a = State.reset.byteAt a := by
  have h2 : ¬(0x2FC : Nat) = a := by omega
  simp only [State.byteAt, Memory.read, Memory.entry, if_neg h2]
  rfl

theorem witness_OutputsChangeAtCompletionOnly :
    (∃ t, step (willWrite (inFlight State.reset 0x30) 0x303 1) = .next t) ∧
    (∃ op rest, (willWrite (inFlight State.reset 0x30) 0x303 1).inputs = .host op :: rest) ∧
    (∀ rest, (willWrite (inFlight State.reset 0x30) 0x303 1).inputs ≠ .reset :: rest) :=
  ⟨⟨_, rfl⟩, ⟨_, _, rfl⟩, fun _ h => by cases h⟩

/-- Each clause of `FlagsChangeOnlyAsRuled`: `HZ` cleared and set, `DONE` cleared in both ways and set, `BUSY` set and cleared,
`IE` changed. -/
theorem witness_FlagsChangeOnlyAsRuled :
    answers (step (willWrite { State.reset with hz := true } 0x301 0x08)) (fun t => !t.hz) = true ∧
    answers (step (willWrite (inFlight State.reset 0x30) 0x30C 0x08)) (fun t => t.hz) = true ∧
    answers (step (willWrite { State.reset with done := true } 0x301 0x02)) (fun t => !t.done) = true ∧
    answers (step (willWrite { State.reset with done := true } 0x300 0x70)) (fun t => !t.done && t.busy) = true ∧
    answers (step (inFlight State.reset 0x10)) (fun t => t.done && !t.busy) = true ∧
    answers (step (willWrite State.reset 0x303 0x01)) (fun t => t.ie) = true := by decide

theorem witness_OnlyDecodingWritesRxKind : ∃ t, complete (inFlight { State.reset with rxKind := .ack } 0x10) = .next t ∧
    (inFlight { State.reset with rxKind := .ack } 0x10).op ≠ 0x30 ∧
    (inFlight { State.reset with rxKind := .ack } 0x10).op ≠ 0x60 := ⟨_, rfl, by decide, by decide⟩

theorem witness_ConfigurationIsFixed : ∃ t, step (inFlight State.reset 0x30) = .next t := ⟨_, rfl⟩

/-- HZ-1: a command write while a `DECODE` is in flight. -/
theorem witness_CommandInFlightIsIsolated : ∃ s : State, s.cfg.wf = true ∧ s.busy = true ∧ s.err.toNat ≤ 10 ∧
    (∀ op ∈ [HostOp.wr 0x300 0x40], opInWindow s.cfg op) ∧ s.inputs = [HostOp.wr 0x300 0x40].map .host ++ .engine :: [] := by
  refine ⟨{ inFlight (rxState scenarioA) 0x30 with inputs := [.host (.wr 0x300 0x40), .engine] }, rfl, rfl, by decide, ?_, rfl⟩
  intro op h
  simp only [List.mem_singleton] at h
  subst h
  exact ⟨Nat.zero_le _, (by decide : 0x300 < 0 + 0x1000)⟩

theorem witness_InterruptFollowsDone :
    (∃ t, complete (inFlight State.reset 0x10) = .next t) ∧
    (∃ t, step { State.reset with inputs := [.reset] } = .next t) ∧
    ((willWrite State.reset 0x301 0x02).cfg.wf = true ∧ (0x02 : Byte).getLsbD 1 = true) ∧
    ((willWrite State.reset 0x303 0x01).cfg.wf = true ∧ (0x01 : Byte).getLsbD 0 = true) := by
  exact ⟨⟨_, rfl⟩, ⟨_, rfl⟩, by decide, by decide⟩

theorem witness_ResetEventAbandonsAndResets : ∃ s : State, s.cfg.wf = true ∧ s.busy = true ∧ s.inputs = .reset :: [] :=
  ⟨{ inFlight (rxState scenarioA) 0x30 with inputs := [.reset] }, rfl, rfl, rfl⟩

theorem witness_UnwrittenByteIsStable : ∃ s : State, s.cfg.wf = true ∧ (0x2FF : Offset).toNat < 0x300 ∧
    s.inputs = .reset :: .host (.rd (busAddr s.cfg 0x2FF)) :: .host (.rd (busAddr s.cfg 0x2FF)) :: [] :=
  ⟨{ State.reset with inputs := [.reset, .host (.rd 0x2FF), .host (.rd 0x2FF)] }, rfl, by decide, rfl⟩

theorem witness_BadConfigurationRefused :
    (∃ s : State, s.cfg.start = s.cfg.ack) ∧ (∃ s : State, s.cfg.start = s.cfg.nack) ∧
    (∃ s : State, s.cfg.ack = s.cfg.nack) ∧
    (∃ s : State, s.cfg.start ≠ s.cfg.ack ∧ s.cfg.start ≠ s.cfg.nack ∧ s.cfg.ack ≠ s.cfg.nack) :=
  ⟨⟨{ State.reset with cfg := { cfg2 with ack := 0x02 } }, rfl⟩, ⟨{ State.reset with cfg := { cfg2 with nack := 0x02 } }, rfl⟩,
    ⟨{ State.reset with cfg := { cfg2 with ack := 0x16 } }, rfl⟩, ⟨{ State.reset with cfg := cfg2 }, by decide⟩⟩

/-- The addresses next to the window on both sides, for a window at 0x1000. -/
theorem witness_AccessOutsideWindowFaults :
    (0xFFF < cfg2.base ∨ cfg2.base + 0x1000 ≤ 0xFFF) ∧ (0x2000 < cfg2.base ∨ cfg2.base + 0x1000 ≤ 0x2000) ∧
    cfg2.wf = true ∧ (∃ s : State, s.cfg = cfg2 ∧ s.inputs = .host (.rd 0xFFF) :: []) ∧
    (∃ s : State, s.cfg = cfg2 ∧ ∃ v, s.inputs = .host (.wr 0x2000 v) :: []) :=
  ⟨by decide, by decide, by decide, ⟨{ State.reset with cfg := cfg2, inputs := [.host (.rd 0xFFF)] }, rfl, rfl⟩,
    ⟨{ State.reset with cfg := cfg2, inputs := [.host (.wr 0x2000 0)] }, rfl, 0, rfl⟩⟩

theorem witness_ReservedErrCodeFaults : ∃ s : State, s.cfg.wf = true ∧ 11 ≤ s.err.toNat ∧
    s.inputs = .host (.rd (busAddr s.cfg 0x302)) :: [] :=
  ⟨willRead { State.reset with err := 11 } 0x302, by decide, by decide, rfl⟩

/-- A good state other than reset: `DECODE` of Scenario A in flight, a host read and the engine's turn pending. -/
def goodState : State :=
  { inFlight (rxState scenarioA) 0x30 with inputs := [.host (.rd 0x301), .engine], txLen := 5, ie := true }

theorem witness_EveryStepKeepsInvariant : Inv goodState ∧ ∃ t, step goodState = .next t :=
  ⟨⟨rfl, by decide, fun _ => rfl, by decide, (fun h => nomatch h), .inr (.inr (by decide))⟩, ⟨_, rfl⟩⟩

theorem witness_EveryRunIsSafe : Inv goodState ∧ inputsInWindow goodState := by
  refine ⟨witness_EveryStepKeepsInvariant.1, ?_⟩
  intro op h
  have : op = .rd 0x301 := by simpa [goodState, inFlight] using h
  subst this
  exact ⟨Nat.zero_le _, (by decide : 0x301 < 0 + 0x1000)⟩

end Sys2Proof.Tests
end

/-! ## The scope family: the configuration check (R6) and the invariant -/

section

namespace Sys2Proof.Machine

/-! ### When a step is refused -/

/-- R6: a configuration is well-formed exactly when its three bytes are pairwise distinct. -/
theorem config_wf_iff (c : Config) :
    c.wf = true ↔ c.start ≠ c.ack ∧ c.start ≠ c.nack ∧ c.ack ≠ c.nack := by
  simp [Config.wf, and_assoc]

theorem step_bad_config {s : State} (h : ¬s.cfg.wf = true) : step s = .refused .badConfiguration := by
  rw [step, if_neg h]

theorem engineTurn_ne_refused (s : State) (why : Refusal) : engineTurn s ≠ .refused why := by
  obtain ⟨t, ht, -⟩ := complete_shape s
  rw [engineTurn, ht]
  split <;> nofun

theorem hostRead_ne_refused (s : State) (l : Loc) (why : Refusal) : hostRead s l ≠ .refused why := by
  rw [hostRead]
  split <;> nofun

theorem hostAccess_ne_refused (s : State) (op : HostOp) (why : Refusal) : hostAccess s op ≠ .refused why := by
  cases op with
  | rd addr =>
    cases ho : offsetOf? s.cfg addr with
    | some off =>
      simp only [hostAccess, ho]
      exact hostRead_ne_refused s _ why
    | none => simp [hostAccess, ho]
  | wr addr v => cases ho : offsetOf? s.cfg addr <;> simp [hostAccess, ho]

/-- Under a well-formed configuration no kind of event is refused. -/
theorem step_ne_refused {s : State} (hw : s.cfg.wf = true) (why : Refusal) : step s ≠ .refused why := by
  cases hi : s.inputs with
  | nil =>
    rw [step_no_input hw hi]
    exact engineTurn_ne_refused s why
  | cons e rest =>
    cases e with
    | engine =>
      rw [step_engine hw hi]
      exact engineTurn_ne_refused _ why
    | reset =>
      rw [step_reset hw hi]
      nofun
    | host op =>
      simp only [step, if_pos hw, hi]
      exact hostAccess_ne_refused _ op why

/-! ### What a completion leaves in the completion registers -/

theorem code_bits_le (c : Code) : c.bits.toNat ≤ 10 := by cases c <;> decide

/-- R28, R91: `t` is the end of a command run at `s`. It comes from a `finish` that reports `RESULT = 1` with `OK` only;
`TX_LEN` is left, or set to 1 or to a length an envelope has. -/
def FinishesFrom (s t : State) : Prop :=
  ∃ (u : State) (c : Code) (r : Bool), t = u.finish c r ∧ (r = true → c = .ok) ∧
    (u.txLen = s.txLen ∨ u.txLen = 1 ∨ (5 ≤ u.txLen.toNat ∧ u.txLen.toNat ≤ 256))

theorem decodeEnvelope_finishes (s : State) : FinishesFrom s s.decodeEnvelope := by
  obtain ⟨c, -, e⟩ | ⟨c, -, e⟩ | ⟨-, -, -, -, -, -, e⟩ := s.decodeEnvelope_cases
  · exact ⟨_, c, false, e, nofun, .inl rfl⟩
  · exact ⟨_, c, false, e, nofun, .inl rfl⟩
  · exact ⟨_, .ok, true, e, fun _ => rfl, .inl rfl⟩

theorem exec_finishes {i : Instr} {s t : State} (h : exec i s = .next t) : FinishesFrom s t := by
  cases i with
  | calcSum =>
    obtain ⟨-, e⟩ | ⟨-, e⟩ := execCalc_cases s <;> cases e.symm.trans h
    · exact ⟨_, _, _, rfl, nofun, .inl rfl⟩
    · exact ⟨_, _, _, rfl, fun _ => rfl, .inl rfl⟩
  | check =>
    obtain ⟨-, e⟩ | ⟨-, e⟩ | ⟨-, -, e⟩ := execCheck_cases s <;> cases e.symm.trans h
    · exact ⟨_, _, _, rfl, nofun, .inl rfl⟩
    · exact ⟨_, _, _, rfl, nofun, .inl rfl⟩
    · exact ⟨_, _, _, rfl, fun _ => rfl, .inl rfl⟩
  | decode =>
    cases h
    exact decodeEnvelope_finishes s
  | encode =>
    obtain ⟨c, -, e⟩ | ⟨-, -, hl, m, c, e, -, -⟩ := execEncode_cases s <;> cases e.symm.trans h
    · exact ⟨_, _, _, rfl, nofun, .inl rfl⟩
    · refine ⟨_, _, _, rfl, fun _ => rfl, .inr (.inr ?_)⟩
      simp only [BitVec.toNat_ofNat]
      omega
  | ctrlAck =>
    cases h
    exact ⟨_, _, _, rfl, fun _ => rfl, .inr (.inl rfl)⟩
  | ctrlNack =>
    cases h
    exact ⟨_, _, _, rfl, fun _ => rfl, .inr (.inl rfl)⟩
  | recv =>
    obtain ⟨-, -, e⟩ | ⟨-, -, -, e⟩ | ⟨-, e⟩ := execRecv_cases s <;> cases e.symm.trans h
    · exact ⟨_, _, _, rfl, fun _ => rfl, .inl rfl⟩
    · exact ⟨_, _, _, rfl, fun _ => rfl, .inl rfl⟩
    · exact decodeEnvelope_finishes s

/-- `exec_finishes` for the byte in `OP`, legal or illegal. -/
theorem complete_finishes {s t : State} (h : complete s = .next t) : FinishesFrom s t := by
  obtain ⟨i, -, e⟩ | ⟨r, -, e⟩ := complete_cases s
  · exact exec_finishes (e.symm.trans h)
  · cases e.symm.trans h
    exact ⟨s, _, _, rfl, nofun, .inl rfl⟩

/-- A completion keeps the canonical form of the buffers' memory. -/
theorem complete_mem_wf {s t : State} (h : complete s = .next t) (hm : s.mem.wf) : t.mem.wf := by
  obtain e | ⟨-, n, f, hn, e⟩ | ⟨-, n, f, c, hn, e⟩ | ⟨-, c, e⟩ := complete_mem h <;> rw [e]
  · exact hm
  · exact Memory.wf_fill hm (by simp only [bufferEnd]; omega) f
  · exact Memory.wf_write (Memory.wf_fill hm (by simp only [bufferEnd]; omega) f) (by simp only [bufferEnd]; omega) c
  · exact Memory.wf_write hm (by decide) c

theorem complete_cfg {s t : State} (h : complete s = .next t) : t.cfg = s.cfg := by
  obtain ⟨t', h', e⟩ := complete_shape s
  cases h.symm.trans h'
  rw [e]

/-! ### What a host write leaves alone -/

/-- No host write changes the configuration or one of the engine's outputs (R25, R28, R34, R35, R45). -/
theorem hostWrite_outputs (s : State) (l : Loc) (v : Byte) :
    (hostWrite s l v).cfg = s.cfg ∧ (hostWrite s l v).err = s.err ∧ (hostWrite s l v).result = s.result ∧
      (hostWrite s l v).txLen = s.txLen ∧ (hostWrite s l v).chk = s.chk ∧ (hostWrite s l v).rxKind = s.rxKind := by
  rw [hostWrite]
  split
  · exact ⟨rfl, rfl, rfl, rfl, rfl, rfl⟩
  · cases l with
    | buf b i => exact ⟨rfl, rfl, rfl, rfl, rfl, rfl⟩
    | reg r => cases r <;> exact ⟨rfl, rfl, rfl, rfl, rfl, rfl⟩
    | reserved => exact ⟨rfl, rfl, rfl, rfl, rfl, rfl⟩

/-- A host write changes the buffers by one byte inside them at most. -/
theorem hostWrite_mem (s : State) (l : Loc) (v : Byte) :
    (hostWrite s l v).mem = s.mem ∨ ∃ a, a < bufferEnd ∧ (hostWrite s l v).mem = s.mem.write a v := by
  rw [hostWrite]
  split
  · exact .inl rfl
  · cases l with
    | buf b i => exact .inr ⟨_, bufOffset_lt b i, rfl⟩
    | reg r => cases r <;> exact .inl rfl
    | reserved => exact .inl rfl

theorem hostWrite_mem_wf {s : State} (hm : s.mem.wf) (l : Loc) (v : Byte) : (hostWrite s l v).mem.wf := by
  obtain e | ⟨a, ha, e⟩ := hostWrite_mem s l v <;> rw [e]
  · exact hm
  · exact Memory.wf_write hm ha v

/-- R24, R92: no host write brings `BUSY` and `DONE` together: while busy it sets no `DONE`, and an accepted `CMD` write, the
one that sets `BUSY`, clears `DONE`. -/
theorem hostWrite_busyNotDone {s : State} (h : s.busy = true → s.done = false) (l : Loc) (v : Byte)
    (ht : (hostWrite s l v).busy = true) : (hostWrite s l v).done = false := by
  cases hb : s.busy with
  | true =>
    obtain ⟨d, hz, ie, e, hd⟩ := hostWrite_busy hb l v
    rw [e]
    exact hd (h hb)
  | false =>
    have e : hostWrite s l v = s.applyWrite l v := by simp [hostWrite, hb]
    rw [e] at ht ⊢
    cases l with
    | buf b i => exact absurd (hb.symm.trans ht) nofun
    | reserved => exact absurd (hb.symm.trans ht) nofun
    | reg r =>
      cases r with
      | cmd => rfl
      | _ => exact absurd (hb.symm.trans ht) nofun

/-! ### The invariant, one lemma per kind of event -/

/-- The invariant speaks of the engine's fields only: not of the pending events, the host's log or the draws. -/
theorem inv_bookkeeping {s : State} (h : Inv s) (ins : List Input) (log : List Byte) (n : Nat) :
    Inv { s with inputs := ins, readLog := log, draws := n } :=
  ⟨h.cfgWf, h.memWf, h.busyNotDone, h.errProduced, h.resultOk, h.txLen⟩

theorem complete_inv {s t : State} (hs : Inv s) (h : complete s = .next t) : Inv t := by
  have hcfg := complete_cfg h
  have hmem := complete_mem_wf h hs.memWf
  obtain ⟨u, c, r, rfl, hr, htx⟩ := complete_finishes h
  refine ⟨hcfg ▸ hs.cfgWf, hmem, nofun, code_bits_le c, fun hres => ?_, ?_⟩
  · rw [State.finish_err, hr hres]
    rfl
  · rw [State.finish_txLen]
    obtain e | e | e := htx
    · exact e ▸ hs.txLen
    · exact .inr (.inl (by rw [e]; rfl))
    · exact .inr (.inr e)

theorem resetEvent_inv {s : State} (hw : s.cfg.wf = true) : Inv s.resetEvent :=
  ⟨hw, Memory.wf_nil, nofun, Nat.zero_le _, nofun, .inl rfl⟩

theorem hostRead_inv {s t : State} {l : Loc} (hs : Inv s) (h : hostRead s l = .next t) : Inv t := by
  rw [hostRead_next h]
  exact inv_bookkeeping hs _ _ _

theorem hostWrite_inv {s : State} (hs : Inv s) (l : Loc) (v : Byte) : Inv (hostWrite s l v) := by
  obtain ⟨hcfg, herr, hres, htx, -, -⟩ := hostWrite_outputs s l v
  exact
    { cfgWf := hcfg ▸ hs.cfgWf
      memWf := hostWrite_mem_wf hs.memWf l v
      busyNotDone := hostWrite_busyNotDone hs.busyNotDone l v
      errProduced := herr ▸ hs.errProduced
      resultOk := by
        rw [hres, herr]
        exact hs.resultOk
      txLen := htx ▸ hs.txLen }

/-- Every step keeps the invariant. -/
theorem step_inv {s t : State} (hs : Inv s) (h : step s = .next t) : Inv t := by
  have hs' : Inv { s with inputs := s.inputs.tail } := inv_bookkeeping hs _ _ _
  obtain ⟨hw, ⟨-, -, rfl⟩ | ⟨-, -, hc⟩ | ⟨-, rfl⟩ | ⟨off, -, hr⟩ | ⟨off, v, -, rfl⟩⟩ := step_cases h
  · exact hs'
  · exact complete_inv hs' hc
  · exact resetEvent_inv hw
  · exact hostRead_inv hs' hr
  · exact hostWrite_inv hs' _ v

end Sys2Proof.Machine

namespace Sys2Proof.Proofs

open Sys2Proof.Machine

/-- Settles O49: the five kinds of step, each by its own invariant lemma. -/
theorem everyStepKeepsInvariant : Obligations.EveryStepKeepsInvariant :=
  fun _ _ hs h => step_inv hs h

/-- Settles O45: two equal bytes are an ill-formed configuration, refused before any event is looked at; under a well-formed
one no kind of event has a refusal. -/
theorem badConfigurationRefused : Obligations.BadConfigurationRefused := by
  intro s
  refine ⟨fun h => step_bad_config ?_, fun h1 h2 h3 => step_ne_refused ((config_wf_iff s.cfg).mpr ⟨h1, h2, h3⟩)⟩
  rw [config_wf_iff]
  rintro ⟨h1, h2, h3⟩
  obtain e | e | e := h
  · exact h1 e
  · exact h2 e
  · exact h3 e

end Sys2Proof.Proofs

end

/-! ## The state family: what a host access, a completion and a reset do to each register (10_state.md) -/

section

namespace Sys2Proof.Machine

/-! ### Which offset names which register -/

theorem locate_of_toNat {off : Offset} {r : Reg} (h : off.toNat = r.offset) : locate off = .reg r := by
  rw [offset_eq h, locate_reg]

/-- A register is named by its own offset only (R60). -/
theorem toNat_of_locate {off : Offset} {r : Reg} (h : locate off = .reg r) : off.toNat = r.offset := by
  obtain hb | ⟨r', -, hl, ho⟩ | hr := offset_cases off
  · obtain ⟨b, i, e, -⟩ := locate_buffer hb
    cases e.symm.trans h
  · cases hl.symm.trans h
    exact ho
  · cases (locate_reserved hr).symm.trans h

theorem eq_of_locate {off : Offset} {r : Reg} (h : locate off = .reg r) : off = BitVec.ofNat 12 r.offset :=
  offset_eq (toNat_of_locate h)

/-- R205: the offsets whose writes are held off while a command is in flight. -/
theorem toNat_of_guarded {off : Offset} (h : (locate off).guarded = true) :
    off.toNat ≤ 0x300 ∨ off.toNat = 0x304 ∨ off.toNat = 0x305 ∨ (0x308 ≤ off.toNat ∧ off.toNat ≤ 0x30C) := by
  obtain hb | ⟨r, -, hl, ho⟩ | hr := offset_cases off
  · omega
  · rw [hl] at h
    rw [ho]
    revert h
    cases r <;> decide
  · rw [locate_reserved hr] at h
    cases h

/-! ### The register bytes as numbers (R24, R27, R28, R32) -/

theorem statusBits_toNat (b d r z : Bool) :
    (statusBits b d r z).toNat = b.toNat + 2 * d.toNat + 4 * r.toNat + 8 * z.toNat := by
  cases b <;> cases d <;> cases r <;> cases z <;> rfl

theorem flagsByte_toNat (s : State) : s.flagsByte.toNat = s.valid.toNat + 2 * s.ppres.toNat := by
  rw [State.flagsByte]
  cases s.valid <;> cases s.ppres <;> rfl

theorem ctrlByte_toNat (s : State) : s.ctrlByte.toNat = s.ie.toNat := by
  rw [State.ctrlByte]
  cases s.ie <;> rfl

theorem lenLow_toNat (l : Len) : (lenLow l).toNat = l.toNat % 256 := by simp [lenLow]

theorem lenHigh_toNat (l : Len) : (lenHigh l).toNat = l.toNat / 256 := by
  have hl := l.isLt
  simp only [lenHigh, BitVec.toNat_setWidth, BitVec.extractLsb'_toNat, Nat.shiftRight_eq_div_pow]
  omega

/-- R208: a write of the low register keeps bit 8. -/
theorem withLenLow_eq (l : Len) (v : Byte) : withLenLow l v = BitVec.ofNat 9 (l.toNat / 256 * 256 + v.toNat) := by
  have hl := l.isLt
  have hv := v.isLt
  apply BitVec.eq_of_toNat_eq
  simp only [withLenLow, BitVec.toNat_append, BitVec.extractLsb'_toNat, BitVec.toNat_ofNat,
    Nat.shiftRight_eq_div_pow]
  rw [← Nat.shiftLeft_add_eq_or_of_lt hv, Nat.shiftLeft_eq]
  omega

/-- R27: a write of the high register keeps bits 7:0 and takes bit 0 of the byte. -/
theorem withLenHigh_eq (l : Len) (v : Byte) :
    withLenHigh l v = BitVec.ofNat 9 (v.toNat % 2 * 256 + l.toNat % 256) := by
  have hm : l.toNat % 256 < 2 ^ 8 := Nat.mod_lt _ (by decide)
  apply BitVec.eq_of_toNat_eq
  simp only [withLenHigh, BitVec.toNat_append, BitVec.extractLsb'_toNat, BitVec.toNat_ofNat, Nat.shiftRight_zero]
  rw [← Nat.shiftLeft_add_eq_or_of_lt hm, Nat.shiftLeft_eq]
  omega

/-! ### A host access while idle -/

theorem hostWrite_unguarded {l : Loc} (h : l.guarded = false) (s : State) (v : Byte) :
    hostWrite s l v = s.applyWrite l v := by simp [hostWrite, h]

theorem hostWrite_idle {s : State} (h : s.busy = false) (l : Loc) (v : Byte) :
    hostWrite s l v = s.applyWrite l v := by simp [hostWrite, h]

/-- No location shows the configuration, the pending events or the host's log (R45). -/
theorem locByte_congr (s : State) (c : Config) (ins : List Input) (log : List Byte) (l : Loc) :
    ({ s with cfg := c, inputs := ins, readLog := log } : State).locByte l = s.locByte l := rfl

/-- R65, R206: with no command in flight a read returns the stored byte, and changes the host's log only. -/
theorem hostRead_idle {s : State} (hb : s.busy = false) (he : s.err.toNat ≤ 10) (l : Loc) :
    hostRead s l = .next { s with readLog := s.locByte l :: s.readLog } := by
  have hr : s.raced l = false := by simp [State.raced, hb]
  rw [hostRead_ok he]
  simp [State.readByte, hr]

section

variable {s : State} {off : Offset} {rest : List Input} (hw : s.cfg.wf = true)

include hw

theorem step_wr_idle {v : Byte} (hb : s.busy = false) (hi : s.inputs = .host (.wr (busAddr s.cfg off) v) :: rest) :
    step s = .next (({ s with inputs := rest } : State).applyWrite (locate off) v) :=
  (step_wr hw hi).trans (congrArg _ (hostWrite_idle (s := { s with inputs := rest }) hb _ v))

/-- R205: a register outside the hazard takes its write whether or not a command is in flight. -/
theorem step_wr_unguarded {v : Byte} (hg : (locate off).guarded = false)
    (hi : s.inputs = .host (.wr (busAddr s.cfg off) v) :: rest) :
    step s = .next (({ s with inputs := rest } : State).applyWrite (locate off) v) :=
  (step_wr hw hi).trans (congrArg _ (hostWrite_unguarded hg { s with inputs := rest } v))

theorem step_rd_idle (hb : s.busy = false) (he : s.err.toNat ≤ 10)
    (hi : s.inputs = .host (.rd (busAddr s.cfg off)) :: rest) :
    step s = .next { s with inputs := rest, readLog := s.locByte (locate off) :: s.readLog } :=
  (step_rd hw hi).trans (hostRead_idle (s := { s with inputs := rest }) hb he _)

/-- A read stores nothing, so the next read of the same offset returns the same byte. -/
theorem run_rd_rd_idle (hb : s.busy = false) (he : s.err.toNat ≤ 10)
    (hi : s.inputs = .host (.rd (busAddr s.cfg off)) :: .host (.rd (busAddr s.cfg off)) :: rest) :
    core.run 2 s = .next { s with
      inputs := rest, readLog := s.locByte (locate off) :: s.locByte (locate off) :: s.readLog } :=
  (run_succ (step_rd_idle hw hb he hi)).trans
    (run_one (step_rd_idle (s := { s with inputs := _, readLog := _ }) hw hb he rfl))

end

theorem locByte_buffer {off : Offset} (h : off.toNat < bufferEnd) (s : State) :
    s.locByte (locate off) = s.byteAt off.toNat := by
  obtain ⟨b, i, e, hi⟩ := locate_buffer h
  rw [e, ← hi]
  rfl

theorem applyWrite_buffer {off : Offset} (h : off.toNat < bufferEnd) (s : State) (v : Byte) :
    s.applyWrite (locate off) v = s.store off.toNat v := by
  obtain ⟨b, i, e, hi⟩ := locate_buffer h
  rw [e, ← hi]
  rfl

/-- R25, R28, R34 to R36: the read-only registers and the reserved offsets ignore a write. -/
theorem applyWrite_readOnly {off : Offset}
    (h : off.toNat = 0x302 ∨ off.toNat = 0x306 ∨ off.toNat = 0x307 ∨ 0x30D ≤ off.toNat) (s : State) (v : Byte) :
    s.applyWrite (locate off) v = s := by
  obtain hb | ⟨r, -, hl, ho⟩ | hr := offset_cases off
  · omega
  · rw [hl]
    rw [ho] at h
    cases r with
    | err => rfl
    | txlenL => rfl
    | txlenH => rfl
    | chk => rfl
    | rxKind => rfl
    | _ => exact absurd h (by decide)
  · rw [locate_reserved hr]
    rfl

/-! ### What changes the flags -/

/-- Everything a host write can do to `BUSY`, `DONE`, `HZ` and `IE`: be ignored and flagged, start a command, write a flag
register, or leave all four (R24, R26, R92, R93). -/
theorem hostWrite_flags (s : State) (l : Loc) (v : Byte) :
    (s.busy = true ∧ l.guarded = true ∧ hostWrite s l v = s.flagHazard) ∨
    (s.busy = false ∧ l = .reg .cmd ∧ hostWrite s l v = s.accept v) ∨
    (l = .reg .status ∧ hostWrite s l v = s.writeStatus v) ∨
    (l = .reg .ctrl ∧ hostWrite s l v = s.writeCtrl v) ∨
    ((hostWrite s l v).busy = s.busy ∧ (hostWrite s l v).done = s.done ∧ (hostWrite s l v).hz = s.hz ∧
      (hostWrite s l v).ie = s.ie) := by
  by_cases h : (s.busy && l.guarded) = true
  · obtain ⟨hb, hg⟩ := Bool.and_eq_true_iff.mp h
    exact .inl ⟨hb, hg, by rw [hostWrite, if_pos h]⟩
  · rw [hostWrite, if_neg h]
    cases l with
    | buf b i => exact .inr (.inr (.inr (.inr ⟨rfl, rfl, rfl, rfl⟩)))
    | reserved => exact .inr (.inr (.inr (.inr ⟨rfl, rfl, rfl, rfl⟩)))
    | reg r =>
      cases r with
      | cmd => exact .inr (.inl ⟨by simpa [Loc.guarded] using h, rfl, rfl⟩)
      | status => exact .inr (.inr (.inl ⟨rfl, rfl⟩))
      | ctrl => exact .inr (.inr (.inr (.inl ⟨rfl, rfl⟩)))
      | _ => exact .inr (.inr (.inr (.inr ⟨rfl, rfl, rfl, rfl⟩)))

/-- What a completion does to the flags (R91). -/
theorem complete_flags {s t : State} (h : complete s = .next t) :
    t.busy = false ∧ t.done = true ∧ t.hz = s.hz ∧ t.ie = s.ie := by
  obtain ⟨t', h', e⟩ := complete_shape s
  cases h.symm.trans h'
  rw [e]
  exact ⟨rfl, rfl, rfl, rfl⟩

/-- Everything a step other than a reset can do to the flags. -/
theorem step_flags {s t : State} (h : step s = .next t) (hr : ∀ rest, s.inputs ≠ .reset :: rest) :
    (t.busy = s.busy ∧ t.done = s.done ∧ t.hz = s.hz ∧ t.ie = s.ie) ∨
    (s.busy = true ∧ t.busy = false ∧ t.done = true ∧ t.hz = s.hz ∧ t.ie = s.ie) ∨
    (∃ off v rest, s.inputs = .host (.wr (busAddr s.cfg off) v) :: rest ∧
      ((s.busy = true ∧ (locate off).guarded = true ∧ t.busy = s.busy ∧ t.done = s.done ∧ t.hz = true ∧ t.ie = s.ie) ∨
       (s.busy = false ∧ off = 0x300 ∧ t.op = v ∧ t.busy = true ∧ t.done = false ∧ t.hz = s.hz ∧ t.ie = s.ie) ∨
       (off = 0x301 ∧ t.busy = s.busy ∧ t.done = (s.done && !v.getLsbD 1) ∧ t.hz = (s.hz && !v.getLsbD 3) ∧
        t.ie = s.ie) ∨
       (off = 0x303 ∧ t.busy = s.busy ∧ t.done = s.done ∧ t.hz = s.hz ∧ t.ie = v.getLsbD 0))) := by
  obtain ⟨-, ⟨-, -, rfl⟩ | ⟨hb, -, hc⟩ | ⟨hi, -⟩ | ⟨off, -, hd⟩ | ⟨off, v, hi, ht⟩⟩ := step_cases h
  · exact .inl ⟨rfl, rfl, rfl, rfl⟩
  · have hf := complete_flags hc
    exact .inr (.inl ⟨hb, hf⟩)
  · obtain ⟨rest, e⟩ := List.head?_eq_some_iff.mp hi
    exact absurd e (hr rest)
  · rw [hostRead_next hd]
    exact .inl ⟨rfl, rfl, rfl, rfl⟩
  · obtain ⟨rest, e⟩ := List.head?_eq_some_iff.mp hi
    obtain ⟨hb, hg, w⟩ | ⟨hb, hl, w⟩ | ⟨hl, w⟩ | ⟨hl, w⟩ | w :=
      hostWrite_flags { s with inputs := s.inputs.tail } (locate off) v
    · rw [ht, w]
      exact .inr (.inr ⟨off, v, rest, e, .inl ⟨hb, hg, rfl, rfl, rfl, rfl⟩⟩)
    · rw [ht, w]
      exact .inr (.inr ⟨off, v, rest, e, .inr (.inl ⟨hb, eq_of_locate hl, rfl, rfl, rfl, rfl, rfl⟩)⟩)
    · rw [ht, w]
      exact .inr (.inr ⟨off, v, rest, e, .inr (.inr (.inl ⟨eq_of_locate hl, rfl, rfl, rfl, rfl⟩))⟩)
    · rw [ht, w]
      exact .inr (.inr ⟨off, v, rest, e, .inr (.inr (.inr ⟨eq_of_locate hl, rfl, rfl, rfl, rfl⟩))⟩)
    · rw [ht]
      exact .inl w

/-! ### What no command reads or writes: the payload tail (R42) -/

/-- Two memories that read alike at every offset below `PAY[252]`. -/
def SameBytes (e : Nat) (m m' : Memory) : Prop := ∀ a, a < 0x200 + 252 → m'.read e a = m.read e a

theorem SameBytes.write {e : Nat} {m m' : Memory} (h : SameBytes e m m') (b : Nat) (v : Byte) :
    SameBytes e (m.write b v) (m'.write b v) := by
  intro a ha
  rw [Memory.read_write, Memory.read_write, h a ha]

theorem SameBytes.fill {e : Nat} {m m' : Memory} (h : SameBytes e m m') {f f' : Nat → Byte} {n : Nat} (base : Nat)
    (hf : ∀ j, j < n → f' j = f j) : SameBytes e (m.fill base f n) (m'.fill base f' n) := by
  intro a ha
  rw [Memory.read_fill, Memory.read_fill, h a ha]
  split
  · exact hf _ (by omega)
  · rfl

/-- `u` is `t` with other bytes from `PAY[252]` on, at most. -/
def SameUpToTail (t u : State) : Prop := u = { t with mem := u.mem } ∧ SameBytes t.epoch t.mem u.mem

theorem SameUpToTail.ite {c : Prop} [Decidable c] {t t' u u' : State} (h : SameUpToTail t u) (h' : SameUpToTail t' u') :
    SameUpToTail (if c then t else t') (if c then u else u') := by
  split <;> assumption

/-- Two results that are next states, alike up to the payload tail. -/
def EndsSame (x y : Result) : Prop := ∃ t u, x = .next t ∧ y = .next u ∧ SameUpToTail t u

theorem EndsSame.next {t u : State} (h : SameUpToTail t u) : EndsSame (.next t) (.next u) := ⟨t, u, rfl, rfl, h⟩

theorem EndsSame.ite {c : Prop} [Decidable c] {x x' y y' : Result} (h : c → EndsSame x y) (h' : ¬c → EndsSame x' y') :
    EndsSame (if c then x else x') (if c then y else y') := by
  split
  · exact h ‹c›
  · exact h' ‹¬c›

section

variable {s : State} {m : Memory} (h : SameBytes s.epoch s.mem m)

include h

theorem rx_sameBytes {i : Nat} (hi : i < 512) : ({ s with mem := m } : State).rx i = s.rx i :=
  h (0x000 + i) (by omega)

theorem ck_rx_sameBytes {a b : Nat} (hb : b ≤ 512) : ck ({ s with mem := m } : State).rx a b = ck s.rx a b :=
  ck_congr fun _ _ hi => rx_sameBytes h (by omega)

theorem envelopeByte_sameBytes {i : Nat} (hi : i < 256) :
    ({ s with mem := m } : State).envelopeByte i = s.envelopeByte i := by
  match i with
  | 0 | 1 | 2 | 3 => rfl
  | j + 4 => exact h (0x200 + j) (by omega)

theorem acceptEnvelope_sameUpToTail {n : Nat} (hn : n < 512) :
    SameUpToTail (s.acceptEnvelope n) (({ s with mem := m } : State).acceptEnvelope n) := by
  refine ⟨?_, h.fill _ fun j hj => rx_sameBytes h (by omega)⟩
  simp only [State.acceptEnvelope, rx_sameBytes h (show 2 < 512 by decide), rx_sameBytes h (show 3 < 512 by decide),
    rx_sameBytes h (show n - 1 < 512 by omega)]
  rfl

theorem decodeEnvelope_sameUpToTail :
    SameUpToTail s.decodeEnvelope ({ s with mem := m } : State).decodeEnvelope := by
  have hn : s.rxLen.toNat < 512 := s.rxLen.isLt
  simp only [State.decodeEnvelope, rx_sameBytes h (show 0 < 512 by decide), rx_sameBytes h (show 1 < 512 by decide),
    rx_sameBytes h (show 2 < 512 by decide), rx_sameBytes h (show s.rxLen.toNat - 1 < 512 by omega),
    ck_rx_sameBytes h (show s.rxLen.toNat - 1 ≤ 512 by omega)]
  exact .ite ⟨rfl, h⟩ (.ite ⟨rfl, h⟩ (.ite ⟨rfl, h⟩ (.ite ⟨rfl, h⟩ (.ite ⟨rfl, h⟩ (.ite ⟨rfl, h⟩
    (acceptEnvelope_sameUpToTail (s := { s with chk := ck s.rx 1 (s.rxLen.toNat - 1) }) h hn))))))

theorem execEncode_endsSame : EndsSame (execEncode s) (execEncode { s with mem := m }) := by
  by_cases hok : s.valid = true ∧
      ¬((s.ppres = false ∧ 0 < s.msgPlen.toNat) ∨ (s.ppres = true ∧ s.msgPlen.toNat = 0)) ∧ s.msgPlen.toNat ≤ 251
  · obtain ⟨hv, hp, hl⟩ := hok
    obtain ⟨m1, c, e1, rfl, hc1⟩ := execEncode_success hv hp hl
    obtain ⟨m2, c2, e2, rfl, hc2⟩ := execEncode_success (s := { s with mem := m }) hv hp hl
    have hL : s.msgPlen.toNat + 4 ≤ 256 := by omega
    have hb : ∀ i, i < s.msgPlen.toNat + 4 → ({ s with mem := m } : State).envelopeByte i = s.envelopeByte i :=
      fun i hi => envelopeByte_sameBytes h (Nat.lt_of_lt_of_le hi hL)
    have hc : c2 = c := by
      rw [hc1, hc2]
      exact ck_congr fun i _ hi => hb i hi
    rw [e1, e2, hc]
    exact .next ⟨rfl, (h.fill _ hb).write _ _⟩
  · exact .ite (fun _ => .next ⟨rfl, h⟩) fun h1 => .ite (fun _ => .next ⟨rfl, h⟩) fun h2 =>
      .ite (fun _ => .next ⟨rfl, h⟩) fun h3 => absurd ⟨by simpa using h1, h2, by simpa using h3⟩ hok

/-- R42: no command reads a byte of the payload tail. -/
theorem exec_endsSame (i : Instr) : EndsSame (exec i s) (exec i { s with mem := m }) := by
  have hn : s.rxLen.toNat < 512 := s.rxLen.isLt
  cases i with
  | calcSum =>
    simp only [exec, execCalc, ck_rx_sameBytes h (show s.rxLen.toNat ≤ 512 by omega)]
    exact .ite (fun _ => .next ⟨rfl, h⟩) fun _ => .next ⟨rfl, h⟩
  | check =>
    simp only [exec, execCheck, rx_sameBytes h (show s.rxLen.toNat - 1 < 512 by omega),
      ck_rx_sameBytes h (show s.rxLen.toNat - 1 ≤ 512 by omega)]
    exact .ite (fun _ => .next ⟨rfl, h⟩) fun _ => .ite (fun _ => .next ⟨rfl, h⟩) fun _ => .next ⟨rfl, h⟩
  | decode => exact .next (decodeEnvelope_sameUpToTail h)
  | encode => exact execEncode_endsSame h
  | ctrlAck => exact .next ⟨rfl, h.write _ _⟩
  | ctrlNack => exact .next ⟨rfl, h.write _ _⟩
  | recv =>
    simp only [exec, execRecv, rx_sameBytes h (show 0 < 512 by decide)]
    exact .ite (fun _ => .next ⟨rfl, h⟩) fun _ => .ite (fun _ => .next ⟨rfl, h⟩) fun _ =>
      .next (decodeEnvelope_sameUpToTail h)

theorem complete_endsSame : EndsSame (complete s) (complete { s with mem := m }) := by
  obtain ⟨i, hi, e⟩ | ⟨r, hr, e⟩ := complete_cases s
  · rw [e, complete_legal (s := { s with mem := m }) hi]
    exact exec_endsSame h i
  · rw [e, complete_illegal (s := { s with mem := m }) hr]
    exact .next ⟨rfl, h⟩

end

end Sys2Proof.Machine

namespace Sys2Proof.Proofs

open Sys2Proof.Machine

/-- Settles O12: while idle a write is the register's own update, at the one register its offset names. -/
theorem idleRegisterWrites : Obligations.IdleRegisterWrites := by
  intro s off v rest hw hb hi
  have at_reg (r : Reg) (h : off.toNat = r.offset) :
      step s = .next (({ s with inputs := rest } : State).applyWrite (.reg r) v) :=
    locate_of_toNat h ▸ step_wr_idle hw hb hi
  refine ⟨at_reg .status, at_reg .ctrl, fun h => ?_, fun h => ?_, at_reg .msgType, at_reg .msgFid, at_reg .msgPlen,
    at_reg .msgFlags, at_reg .msgCs, fun h => ?_⟩
  · rw [at_reg .rxlenL h, ← withLenLow_eq]
    rfl
  · rw [at_reg .rxlenH h, ← withLenHigh_eq]
    rfl
  · rw [step_wr_idle hw hb hi, applyWrite_readOnly h]

/-- Settles O13: the write is one `store`, at the offset itself. -/
theorem idleBufferWrites : Obligations.IdleBufferWrites := by
  intro s off v rest hw hb ho hi
  refine ⟨_, step_wr_idle hw hb hi, ?_⟩
  rw [applyWrite_buffer ho]
  exact ⟨rfl, fun a => State.byteAt_store _ _ _ _⟩

/-- Settles O15: the read returns the stored byte of the location its offset names; a register's byte is a number by the
lemma about its fields. -/
theorem idleReads : Obligations.IdleReads := by
  intro s off rest hw hb he hi
  have at_reg (r : Reg) (h : off.toNat = r.offset) : s.locByte (locate off) = s.regByte r := by
    rw [locate_of_toNat h]
    rfl
  have num {n : Nat} (r : Reg) (hn : (s.regByte r).toNat = n) (h : off.toNat = r.offset) :
      (s.locByte (locate off)).toNat = n := by rw [at_reg r h, hn]
  have status : s.statusByte.toNat = 2 * s.done.toNat + 4 * s.result.toNat + 8 * s.hz.toNat := by
    rw [State.statusByte, statusBits_toNat, hb, Bool.toNat_false, Nat.zero_add]
  refine ⟨s.locByte (locate off), step_rd_idle hw hb he hi, fun h => locByte_buffer h s, at_reg .cmd, num .status status,
    num .err (BitVec.toNat_setWidth_of_le (by decide)), num .ctrl (ctrlByte_toNat s), num .rxlenL (lenLow_toNat _),
    num .rxlenH (lenHigh_toNat _), num .txlenL (lenLow_toNat _), num .txlenH (lenHigh_toNat _),
    num .msgType (BitVec.toNat_setWidth_of_le (by decide)), at_reg .msgFid, at_reg .msgPlen,
    num .msgFlags (flagsByte_toNat s), at_reg .msgCs, at_reg .chk, fun h => ?_, fun h => ?_⟩
  · rw [at_reg .rxKind h, State.regByte]
    cases s.rxKind <;> rfl
  · rw [locate_reserved h]
    rfl

/-- Settles O35: no command reads the tail, and of the runs a completion writes, none reaches it. -/
theorem payloadTailIsPlainStorage : Obligations.PayloadTailIsPlainStorage := by
  intro s m h
  obtain ⟨t, u, ht, hu, e, hb⟩ := complete_endsSame (s := s) h
  refine ⟨t, u, ht, hu, e, fun a ha => ?_, fun j hj _ => ?_⟩
  · rw [e]
    exact hb a ha
  · exact complete_byteAt ht (0x200 + j) (by omega) (by omega) (by omega)

/-- Settles O36: only a completion and a reset touch the outputs; an idle turn and a read leave them, and a write does by
`hostWrite_outputs`. -/
theorem outputsChangeAtCompletionOnly : Obligations.OutputsChangeAtCompletionOnly := by
  intro s t h hn hr
  obtain ⟨-, ⟨-, -, rfl⟩ | ⟨hb, hi, -⟩ | ⟨hi, -⟩ | ⟨off, -, hd⟩ | ⟨off, v, -, rfl⟩⟩ := step_cases h
  · exact ⟨rfl, rfl, rfl, rfl, rfl⟩
  · obtain hb' | ⟨op, rest, e⟩ := hn
    · cases hb.symm.trans hb'
    · rw [e] at hi
      obtain hi | hi := hi <;> cases hi
  · obtain ⟨rest, e⟩ := List.head?_eq_some_iff.mp hi
    exact absurd e (hr rest)
  · rw [hostRead_next hd]
    exact ⟨rfl, rfl, rfl, rfl, rfl⟩
  · obtain ⟨-, hout⟩ := hostWrite_outputs { s with inputs := s.inputs.tail } (locate off) v
    exact hout

/-- Settles O37: `step_flags` lists what a step can do to the flags. Each event accounts for the clauses on the flags it
changes; the other clauses ask for a change that it does not make. -/
theorem flagsChangeOnlyAsRuled : Obligations.FlagsChangeOnlyAsRuled := by
  intro s t h hr
  obtain ⟨ebusy, edone, ehz, eie⟩ | ⟨hb, ebusy, edone, ehz, eie⟩ | ⟨off, v, rest, hi, hw⟩ := step_flags h hr
  · simp +contextual [ebusy, edone, ehz, eie]
  · simp +contextual [hb, ebusy, edone, ehz, eie]
  obtain ⟨hb, hg, ebusy, edone, ehz, eie⟩ | ⟨hb, rfl, eop, ebusy, edone, ehz, eie⟩ | ⟨rfl, ebusy, edone, ehz, eie⟩ |
    ⟨rfl, ebusy, edone, ehz, eie⟩ := hw
  · refine ⟨?_, fun _ _ => ⟨hb, off, v, rest, hi, toNat_of_guarded hg⟩, ?_⟩ <;>
      simp +contextual [ebusy, edone, ehz, eie]
  · refine ⟨?_, ?_, fun _ _ => .inr ⟨hb, v, rest, hi⟩, ?_, fun _ _ => ⟨v, rest, hi, eop⟩, ?_, ?_⟩ <;>
      simp +contextual [hb, edone, ehz, eie]
  · have clearsHz (hz : s.hz = true) (hz' : t.hz = false) : v.getLsbD 3 = true := by simpa [ehz, hz] using hz'
    have clearsDone (hd : s.done = true) (hd' : t.done = false) : v.getLsbD 1 = true := by simpa [edone, hd] using hd'
    refine ⟨fun hz hz' => ⟨v, rest, hi, clearsHz hz hz'⟩, ?_, fun hd hd' => .inl ⟨v, rest, hi, clearsDone hd hd'⟩,
      ?_, ?_, ?_, ?_⟩ <;>
      simp +contextual [ebusy, edone, ehz, eie]
  · refine ⟨?_, ?_, ?_, ?_, ?_, ?_, fun _ => ⟨v, rest, hi, eie⟩⟩ <;> simp +contextual [ebusy, edone, ehz]

/-- Settles O38: `RX_KIND` is among the registers that only the bytes 0x30 and 0x60 write (`complete_regs`). -/
theorem onlyDecodingWritesRxKind : Obligations.OnlyDecodingWritesRxKind := by
  intro s t h h30 h60
  obtain ⟨hmsg, -, -⟩ := complete_regs h
  obtain ⟨hkind, -⟩ := hmsg h30 h60
  exact hkind

/-- Settles O39: each kind of step keeps the configuration, and what a location holds is read from other fields. -/
theorem configurationIsFixed : Obligations.ConfigurationIsFixed := by
  refine ⟨fun s t h => ?_, fun s c l => locByte_congr s c s.inputs s.readLog l⟩
  obtain ⟨-, ⟨-, -, rfl⟩ | ⟨-, -, hc⟩ | ⟨-, rfl⟩ | ⟨off, -, hd⟩ | ⟨off, v, -, rfl⟩⟩ := step_cases h
  · rfl
  · have hcfg := complete_cfg hc
    exact hcfg
  · rfl
  · rw [hostRead_next hd]
  · obtain ⟨hcfg, -⟩ := hostWrite_outputs { s with inputs := s.inputs.tail } (locate off) v
    exact hcfg

/-- Settles O41: `IRQ` is read off the flags each event leaves. -/
theorem interruptFollowsDone : Obligations.InterruptFollowsDone := by
  refine ⟨fun s => rfl, fun s t h => ?_, fun s t rest h hi => ?_, fun s v rest hw hb hi => ?_, fun s v rest hw hv hi => ?_,
    fun s v rest hw hv hi => ?_⟩
  · obtain ⟨-, hd, -, hie⟩ := complete_flags h
    simp [State.irq, hd, hie]
  · obtain ⟨hw, -⟩ := step_cases h
    cases (step_reset hw hi).symm.trans h
    rfl
  · refine ⟨_, step_wr_idle hw hb hi, ?_⟩
    show (s.ie && false) = false
    simp
  · refine ⟨_, step_wr_unguarded hw (by decide) hi, ?_⟩
    show (s.ie && (s.done && !v.getLsbD 1)) = false
    simp [hv]
  · refine ⟨_, step_wr_unguarded hw (by decide) hi, ?_⟩
    show (v.getLsbD 0 && s.done) = s.done
    simp [hv]

/-- Settles O44: after the reset the engine is idle, so both reads return the stored byte, and a read stores nothing. -/
theorem unwrittenByteIsStable : Obligations.UnwrittenByteIsStable := by
  intro s off rest hw _ hi
  exact ⟨_, _, (run_succ (step_reset hw hi)).trans (run_rd_rd_idle (s := State.resetEvent _) hw rfl (Nat.zero_le _) rfl),
    rfl⟩

/-- Settles O42: a closed fact about the one reset state. -/
theorem resetStateValues : Obligations.ResetStateValues := by
  unfold Obligations.ResetStateValues atResetValues
  decide

/-- Settles O48: the default configuration is well-formed, no buffer byte is listed, and `BUSY`, `RESULT`, `ERR` and `TX_LEN`
are 0. -/
theorem resetMeetsInvariant : Obligations.ResetMeetsInvariant where
  cfgWf := rfl
  memWf := Memory.wf_nil
  busyNotDone := nofun
  errProduced := Nat.zero_le _
  resultOk := nofun
  txLen := .inl rfl

end Sys2Proof.Proofs

end

/-! ## The memory family: buffer bytes, the receive buffer and accesses outside the window (20_memory.md) -/

section

namespace Sys2Proof.Machine

/-! ### Buffer bytes -/

/-- A read of a location other than `ERR` meets no reserved code (R171), so idle it returns the stored byte in every state. -/
theorem hostRead_idle_of_ne_err {s : State} (hb : s.busy = false) {l : Loc} (hl : l ≠ .reg .err) :
    hostRead s l = .next { s with readLog := s.locByte l :: s.readLog } := by
  have hr : s.raced l = false := by simp [State.raced, hb]
  simp [hostRead, hl, State.readByte, hr]

theorem locate_buffer_ne_err {off : Offset} (h : off.toNat < bufferEnd) : locate off ≠ .reg .err := by
  obtain ⟨b, i, e, -⟩ := locate_buffer h
  rw [e]
  nofun

/-- Reading back the byte just stored. -/
@[simp] theorem State.byteAt_store_same (s : State) (a : Nat) (v : Byte) : (s.store a v).byteAt a = v := by
  rw [State.byteAt_store, if_pos rfl]

/-- A store outside `PAY` leaves the payload bytes (R42). -/
theorem State.pay_store_of_lt {s : State} {a : Nat} (h : a < 0x200) (v : Byte) (j : Nat) :
    (s.store a v).pay j = s.pay j := by
  have hne : Buf.base .pay + j ≠ a := by
    simp only [Buf.base]
    omega
  rw [State.pay, State.byteAt_store, if_neg hne, State.pay]

section

variable {s : State} {off : Offset} {rest : List Input} (hw : s.cfg.wf = true) (hb : s.busy = false)
  (ho : off.toNat < bufferEnd)

include hw hb ho

theorem step_wr_buffer_idle {v : Byte} (hi : s.inputs = .host (.wr (busAddr s.cfg off) v) :: rest) :
    step s = .next (({ s with inputs := rest } : State).store off.toNat v) := by
  rw [step_wr_idle hw hb hi, applyWrite_buffer ho]

theorem step_rd_buffer_idle (hi : s.inputs = .host (.rd (busAddr s.cfg off)) :: rest) :
    step s = .next { s with inputs := rest, readLog := s.byteAt off.toNat :: s.readLog } := by
  rw [step_rd hw hi, hostRead_idle_of_ne_err (s := { s with inputs := rest }) hb (locate_buffer_ne_err ho),
    locByte_buffer ho]
  rfl

end

/-! ### The receive side of a completion -/

/-- No command has `RX_LEN` in its write set (R94). -/
theorem complete_rxLen {s t : State} (h : complete s = .next t) : t.rxLen = s.rxLen := by
  obtain ⟨t', h', e⟩ := complete_shape s
  cases h.symm.trans h'
  rw [e]

/-- No command has a byte of `RX` in its write set: every run a completion writes starts at `TX[0]` or later (R94). -/
theorem complete_rx {s t : State} (h : complete s = .next t) {k : Nat} (hk : k < 256) : t.rx k = s.rx k := by
  have ha : Buf.base .rx + k < 0x100 := by
    simp only [Buf.base]
    omega
  exact complete_byteAt h _ (fun _ => by omega) (fun _ => by omega) (fun _ => by omega)

/-! ### Accesses outside the window -/

/-- The bus address of a host access. -/
def HostOp.addr : HostOp → Nat
  | .rd addr => addr
  | .wr addr _ => addr

theorem step_host {s : State} {op : HostOp} {rest : List Input} (hw : s.cfg.wf = true)
    (hi : s.inputs = .host op :: rest) : step s = hostAccess { s with inputs := rest } op := by
  simp only [step, if_pos hw, hi]

theorem hostAccess_outside {s : State} {op : HostOp} (h : offsetOf? s.cfg op.addr = none) :
    hostAccess s op = .fault .outsideWindow := by
  cases op with
  | rd addr =>
    have ha : offsetOf? s.cfg addr = none := h
    simp only [hostAccess, ha]
  | wr addr v =>
    have ha : offsetOf? s.cfg addr = none := h
    simp only [hostAccess, ha]

theorem step_outside {s : State} {op : HostOp} {rest : List Input} (hw : s.cfg.wf = true)
    (ha : op.addr < s.cfg.base ∨ s.cfg.base + windowSize ≤ op.addr) (hi : s.inputs = .host op :: rest) :
    step s = .fault .outsideWindow :=
  (step_host hw hi).trans (hostAccess_outside (s := { s with inputs := rest }) (offsetOf_outside ha))

end Sys2Proof.Machine

namespace Sys2Proof.Proofs

open Sys2Proof.Machine

/-- Settles O14: the write stores the byte and leaves the engine idle, so the read returns the stored byte. -/
theorem bufferReadReturnsLastWrite : Obligations.BufferReadReturnsLastWrite := by
  intro s off v rest hw hb ho hi
  have hwr := step_wr_buffer_idle hw hb ho hi
  have hrd := step_rd_buffer_idle
    (s := State.store { s with inputs := .host (.rd (busAddr s.cfg off)) :: rest } off.toNat v) hw hb ho rfl
  refine ⟨_, (run_succ hwr).trans (run_one hrd), ?_⟩
  rw [State.byteAt_store_same, State.store_readLog]

/-- Settles O33: a completion keeps the receive side, and an idle write to `RX` is one `store` below `PAY`. -/
theorem noCommandWritesReceiveBuffer : Obligations.NoCommandWritesReceiveBuffer := by
  refine ⟨fun s t h => ⟨complete_rxLen h, fun k hk => complete_rx h hk⟩, fun s off v rest hw hb ho hi => ?_⟩
  have hbuf : off.toNat < bufferEnd := Nat.lt_trans ho (by decide)
  refine ⟨_, step_wr_buffer_idle hw hb hbuf hi, rfl, rfl, rfl, rfl, rfl, rfl, fun j _ => ?_⟩
  exact State.pay_store_of_lt (s := { s with inputs := rest }) (Nat.lt_trans ho (by decide)) v j

/-- Settles O46: a read and a write outside the window both stop, since the address falls on no offset. -/
theorem accessOutsideWindowFaults : Obligations.AccessOutsideWindowFaults := by
  intro s addr rest hw ha hi
  obtain hi | ⟨v, hi⟩ := hi
  · exact step_outside (op := .rd addr) hw ha hi
  · exact step_outside (op := .wr addr v) hw ha hi

end Sys2Proof.Proofs

end

/-! ## The encoding family: command bytes, issue and completion (30_encoding.md) -/

section

namespace Sys2Proof.Machine

/-! ### The decoder and the encoder -/

@[simp] theorem decodeByte_encodeByte (i : Instr) : decodeByte (encodeByte i) = .ok i := by cases i <;> rfl

/-- R84: a byte decodes to a command exactly when it is that command's byte. -/
theorem decodeByte_ok_iff {b : Byte} {i : Instr} : decodeByte b = .ok i ↔ b = encodeByte i :=
  ⟨decodeByte_inv, fun h => h ▸ decodeByte_encodeByte i⟩

/-- R84: the bytes that are commands, listed. -/
theorem isCommand_iff_mem (b : Byte) :
    (∃ i, decodeByte b = .ok i) ↔ b ∈ ([0x10, 0x20, 0x30, 0x40, 0x50, 0x51, 0x60] : List Byte) := by
  simp only [decodeByte_ok_iff]
  constructor
  · rintro ⟨i, rfl⟩
    cases i <;> decide
  · intro h
    simp only [List.mem_cons, List.not_mem_nil, or_false] at h
    obtain h | h | h | h | h | h | h := h
    · exact ⟨.calcSum, h⟩
    · exact ⟨.check, h⟩
    · exact ⟨.decode, h⟩
    · exact ⟨.encode, h⟩
    · exact ⟨.ctrlAck, h⟩
    · exact ⟨.ctrlNack, h⟩
    · exact ⟨.recv, h⟩

/-- R80: the bytes that are commands, by the bit fields of the byte's number. -/
theorem isCommand_iff_fields (b : Byte) :
    (∃ i, decodeByte b = .ok i) ↔
      (1 ≤ b.toNat / 16 ∧ b.toNat / 16 ≤ 6) ∧ b.toNat / 2 % 8 = 0 ∧ (b.toNat % 2 = 0 ∨ b.toNat / 16 = 5) := by
  rw [isCommand_iff_mem]
  simp only [List.mem_cons, List.not_mem_nil, or_false, BitVec.toNat_eq, BitVec.reduceToNat]
  omega

theorem toOption_isNone_iff (b : Byte) : (decodeByte b).toOption.isNone = true ↔ ¬∃ i, decodeByte b = .ok i := by
  cases h : decodeByte b <;> simp [Except.toOption]

/-- R84: among the 256 byte values the commands are the seven of the table. -/
theorem commandNumbers_perm :
    ((List.range 256).filter fun n => !(decodeByte (BitVec.ofNat 8 n)).toOption.isNone).Perm
      [0x10, 0x20, 0x30, 0x40, 0x50, 0x51, 0x60] := by
  refine (List.perm_ext_iff_of_nodup (List.nodup_range.filter _) (by decide)).mpr fun n => ?_
  rw [List.mem_filter, List.mem_range, Bool.not_eq_true', ← Bool.not_eq_true, toOption_isNone_iff, not_not,
    isCommand_iff_mem]
  simp only [List.mem_cons, List.not_mem_nil, or_false, BitVec.toNat_eq, BitVec.toNat_ofNat, BitVec.reduceToNat]
  omega

/-- R85: 249 of the 256 byte values are no command: all but the seven. -/
theorem illegalNumbers_length :
    ((List.range 256).filter fun n => (decodeByte (BitVec.ofNat 8 n)).toOption.isNone).length = 249 := by
  have hsplit := List.length_eq_length_filter_add (l := List.range 256)
    fun n => (decodeByte (BitVec.ofNat 8 n)).toOption.isNone
  simp only [List.length_range, commandNumbers_perm.length_eq, List.length_cons, List.length_nil] at hsplit
  omega

theorem decodeByte_error_of_illegal {b : Byte} (h : ¬∃ i, decodeByte b = .ok i) : ∃ r, decodeByte b = .error r := by
  cases hd : decodeByte b with
  | ok i => exact absurd ⟨i, hd⟩ h
  | error r => exact ⟨r, rfl⟩

/-- R80: decoding takes one byte and hands on the rest. -/
theorem decode_cons_ok_iff {b : Byte} {bytes rest : List Byte} {i : Instr} :
    decode (b :: bytes) = .ok (i, rest) ↔ decodeByte b = .ok i ∧ bytes = rest := by
  cases hd : decodeByte b <;> simp [decode, hd, Except.map]

/-! ### The engine's turn -/

section

variable {s : State} {rest : List Input} (hw : s.cfg.wf = true)

include hw

theorem step_no_input_busy (hb : s.busy = true) (hi : s.inputs = []) : step s = complete s := by
  rw [step_no_input hw hi, engineTurn, if_pos hb]

theorem step_engine_busy (hb : s.busy = true) (hi : s.inputs = .engine :: rest) :
    step s = complete { s with inputs := rest } :=
  (step_engine hw hi).trans (if_pos hb)

theorem step_no_input_idle (hb : s.busy = false) (hi : s.inputs = []) : step s = .next s := by
  rw [step_no_input hw hi, engineTurn, if_neg (by simp [hb])]

theorem step_engine_idle (hb : s.busy = false) (hi : s.inputs = .engine :: rest) :
    step s = .next { s with inputs := rest } :=
  (step_engine hw hi).trans (if_neg (by simp [hb]))

/-! ### The issue of a command -/

/-- R92: while idle a `CMD` write is accepted, whatever the byte. -/
theorem step_cmd_idle {v : Byte} (hb : s.busy = false) (hi : s.inputs = .host (.wr (busAddr s.cfg 0x300) v) :: rest) :
    step s = .next (({ s with inputs := rest } : State).accept v) := by
  rw [step_wr_idle hw hb hi, locate_of_toNat (r := .cmd) rfl]
  rfl

/-- R205: while a command is in flight a write to a guarded location is ignored and flagged. -/
theorem step_wr_guarded_busy {off : Offset} {v : Byte} (hb : s.busy = true) (hg : (locate off).guarded = true)
    (hi : s.inputs = .host (.wr (busAddr s.cfg off) v) :: rest) :
    step s = .next ({ s with inputs := rest } : State).flagHazard := by
  rw [step_wr hw hi, hostWrite, if_pos (by simp [hb, hg])]

/-- R92, R205: from acceptance on, accesses to the window leave the accepted state but for `HZ`, `IE`, the draws and the
host's log. -/
theorem run_cmd_then_accesses {v : Byte} {ops : List HostOp} (hb : s.busy = false) (he : s.err.toNat ≤ 10)
    (ho : ∀ op ∈ ops, opInWindow s.cfg op)
    (hi : s.inputs = .host (.wr (busAddr s.cfg 0x300) v) :: (ops.map .host ++ rest)) :
    ∃ hz ie dr log, core.run (ops.length + 1) s =
      .next { s.accept v with inputs := rest, hz := hz, ie := ie, draws := dr, readLog := log } := by
  obtain ⟨d, hz, ie, dr, log, hrun, hd⟩ :=
    run_busy_accesses (s := ({ s with inputs := ops.map .host ++ rest } : State).accept v) hw rfl he ho rfl
  cases hd rfl
  exact ⟨hz, ie, dr, log, (run_succ (step_cmd_idle hw hb hi)).trans hrun⟩

/-- R93, R205: a command in flight completes the same whatever accesses to the window come first: they reach only `HZ`, `IE`,
the draws and the host's log, which no completion reads, and `DONE`, which every completion sets. -/
theorem run_accesses_then_complete {u : State} {ops : List HostOp} (hb : s.busy = true) (he : s.err.toNat ≤ 10)
    (ho : ∀ op ∈ ops, opInWindow s.cfg op) (hi : s.inputs = ops.map .host ++ .engine :: rest)
    (hu : complete s = .next u) :
    ∃ hz ie dr log, core.run (ops.length + 1) s =
      .next { u with inputs := rest, hz := hz, ie := ie, draws := dr, readLog := log } := by
  obtain ⟨d, hz, ie, dr, log, hrun, -⟩ := run_busy_accesses hw hb he ho hi
  have hturn : step { s with inputs := .engine :: rest, done := d, hz := hz, ie := ie, draws := dr, readLog := log } =
      .next { u with inputs := rest, hz := hz, ie := ie, draws := dr, readLog := log } :=
    (step_engine_busy (s := { s with inputs := _, done := d, hz := hz, ie := ie, draws := dr, readLog := log })
      hw hb rfl).trans (complete_env hu s.busy d hz ie dr rest log)
  exact ⟨hz, ie, dr, log, (run_add hrun).trans (run_one hturn)⟩

end

/-! ### The frame `ENCODE` emits -/

/-- R155, R156: what `TX` holds after a successful `ENCODE`: the bytes of the envelope, and the checksum over them. -/
theorem encodedFrame_tx {s t : State} {n : Nat} {c : Byte} (he : t.epoch = s.epoch)
    (hm : t.mem = (s.mem.fill 0x100 s.envelopeByte n).write (0x100 + n) c) (hc : c = ck s.envelopeByte 1 n) :
    (∀ i, i < n → t.tx i = s.envelopeByte i) ∧ t.tx n = ck t.tx 1 n := by
  have hbytes : ∀ i, i < n → t.tx i = s.envelopeByte i := by
    intro i hi
    simp only [State.tx, State.byteAt, Buf.base, hm, he]
    rw [Memory.read_write_other _ (by omega), Memory.read_fill_inside _ _ (by omega) (by omega),
      Nat.add_sub_cancel_left]
  refine ⟨hbytes, ?_⟩
  rw [ck_congr fun i _ hi => hbytes i hi, ← hc]
  simp only [State.tx, State.byteAt, Buf.base, hm, Memory.read_write_same]

/-- R154: `TYPE` as a byte is one of the two legal type bytes. -/
theorem typeByte_legal (ty : BitVec 1) : ty.setWidth 8 = (0x00 : Byte) ∨ ty.setWidth 8 = (0x01 : Byte) := by
  revert ty
  decide

/-! ### What a completion leaves alone, by offset (R94) -/

/-- The rows of R94 read the other way: what an offset outside the write set tells about the command byte. -/
theorem not_writeSetOffset_iff {op : Byte} {n : Nat} :
    ¬writeSetOffset op n ↔
      n ≠ 0x302 ∧
      (op = 0x10 ∨ op = 0x20 → n ≠ 0x30D) ∧
      (op = 0x30 ∨ op = 0x60 → ¬(0x308 ≤ n ∧ n ≤ 0x30E) ∧ ¬(0x200 ≤ n ∧ n < 0x200 + 252)) ∧
      (op = 0x40 → ¬(0x100 ≤ n ∧ n < 0x200) ∧ n ≠ 0x306 ∧ n ≠ 0x307 ∧ n ≠ 0x30D) ∧
      (op = 0x50 ∨ op = 0x51 → n ≠ 0x100 ∧ n ≠ 0x306 ∧ n ≠ 0x307) := by
  simp only [writeSetOffset, not_or, not_and]

/-- Outside the write set a completion leaves the register's byte, `STATUS` apart. -/
theorem complete_regByte {s t : State} (h : complete s = .next t) {r : Reg} (hr : r ≠ .status)
    (hn : ¬writeSetOffset s.op r.offset) : t.regByte r = s.regByte r := by
  obtain ⟨herr, hcalc, hdec, henc, hctl⟩ := not_writeSetOffset_iff.mp hn
  obtain ⟨hmsg, htx, hchk⟩ := complete_regs h
  have notDecoding (hk : 0x308 ≤ r.offset ∧ r.offset ≤ 0x30E) : s.op ≠ 0x30 ∧ s.op ≠ 0x60 :=
    ⟨fun e => (hdec (.inl e)).1 hk, fun e => (hdec (.inr e)).1 hk⟩
  have txLen (hk : r.offset = 0x306 ∨ r.offset = 0x307) : t.txLen = s.txLen :=
    have notControl (e : s.op = 0x50 ∨ s.op = 0x51) : False := by
      have := hctl e
      omega
    have notEncode (e : s.op = 0x40) : False := by
      have := henc e
      omega
    htx notEncode (fun e => notControl (.inl e)) (fun e => notControl (.inr e))
  cases r with
  | cmd => rfl
  | status => exact absurd rfl hr
  | err => exact absurd rfl herr
  | ctrl =>
    obtain ⟨-, -, -, hie⟩ := complete_flags h
    simp only [State.regByte, State.ctrlByte, hie]
  | rxlenL => simp only [State.regByte, complete_rxLen h]
  | rxlenH => simp only [State.regByte, complete_rxLen h]
  | txlenL => simp only [State.regByte, txLen (.inl rfl)]
  | txlenH => simp only [State.regByte, txLen (.inr rfl)]
  | chk =>
    obtain ⟨h30, h60⟩ := notDecoding (by decide)
    have h40 : s.op ≠ 0x40 := fun e => by
      obtain ⟨-, -, -, hne⟩ := henc e
      exact hne rfl
    exact hchk (fun e => hcalc (.inl e) rfl) (fun e => hcalc (.inr e) rfl) h30 h60 h40
  | _ =>
    obtain ⟨h30, h60⟩ := notDecoding (by decide)
    obtain ⟨hkind, htype, hfid, hplen, hvalid, hppres, hcs⟩ := hmsg h30 h60
    simp only [State.regByte, State.flagsByte, hkind, htype, hfid, hplen, hvalid, hppres, hcs]

/-! ### Host-op words (R87) -/

/-- Concatenation as arithmetic: the high part shifted over the low part. -/
theorem toNat_append_eq {m n : Nat} (x : BitVec m) (y : BitVec n) : (x ++ y).toNat = x.toNat * 2 ^ n + y.toNat := by
  rw [BitVec.toNat_append, ← Nat.shiftLeft_add_eq_or_of_lt y.isLt, Nat.shiftLeft_eq]

end Sys2Proof.Machine

namespace Sys2Proof.Proofs

open Sys2Proof.Machine

/-- Settles O40: the accesses reach no field that the completion reads. -/
theorem commandInFlightIsIsolated : Obligations.CommandInFlightIsIsolated := by
  intro s ops rest hw hb he ho hi
  obtain ⟨u, hu, -⟩ := complete_shape s
  obtain ⟨hz, ie, dr, log, hrun⟩ := run_accesses_then_complete hw hb he ho hi hu
  exact ⟨_, u, hrun, hu, rfl⟩

/-- Settles O2: a command is one byte, so both ways come down to `decodeByte_ok_iff`. -/
theorem decodeAndEncodeAgree : Obligations.DecodeAndEncodeAgree := by
  refine ⟨fun i rest => decode_cons_ok_iff.mpr ⟨decodeByte_encodeByte i, rfl⟩, fun bytes i rest h => ?_⟩
  cases bytes with
  | nil => cases h
  | cons b tail =>
    obtain ⟨hb, rfl⟩ := decode_cons_ok_iff.mp h
    rw [decodeByte_inv hb]
    rfl

/-- Settles O4: the count is 256 less the seven of R84, the two field clauses are read off `isCommand_iff_fields`, and the run
of an illegal byte is its acceptance, then the one `finish` of its completion. -/
theorem illegalCommandBytes : Obligations.IllegalCommandBytes := by
  refine ⟨illegalNumbers_length, fun b => not_congr (isCommand_iff_mem b), fun b hz h => ?_, fun b hk h5 h => ?_,
    fun s b rest hw hb hill hi => ?_⟩
  · obtain ⟨-, hz0, -⟩ := (isCommand_iff_fields b).mp h
    exact hz hz0
  · obtain ⟨-, -, hk0⟩ := (isCommand_iff_fields b).mp h
    omega
  · obtain ⟨r, hr⟩ := decodeByte_error_of_illegal hill
    have haccept := step_cmd_idle hw hb hi
    have hturn := (step_engine_busy (s := ({ s with inputs := .engine :: rest } : State).accept b) hw rfl rfl).trans
      (complete_illegal hr)
    exact ⟨run_one haccept, (run_succ haccept).trans (run_one hturn)⟩

/-- Settles O7: acceptance is one step, and the accesses after it reach neither `OP` nor an output. -/
theorem commandAcceptance : Obligations.CommandAcceptance := by
  refine ⟨fun s v rest hw hb hi => step_cmd_idle hw hb hi, fun s v ops rest hw hb he ho hi => ?_⟩
  obtain ⟨hz, ie, dr, log, hrun⟩ := run_cmd_then_accesses hw hb he ho hi
  exact ⟨_, hrun, rfl⟩

/-- Settles O10: `complete_flags` gives the flags, `complete_finishes` the code and `RESULT`, `complete_shape` the frame. -/
theorem everyCommandFinishes : Obligations.EveryCommandFinishes := by
  intro s
  obtain ⟨t, ht, e⟩ := complete_shape s
  have hcode : t.err.toNat ≤ 10 ∧ (t.result = true → t.err = 0) := by
    obtain ⟨u, c, r, rfl, hr, -⟩ := complete_finishes ht
    refine ⟨code_bits_le c, fun hres => ?_⟩
    rw [State.finish_err, hr hres]
    rfl
  obtain ⟨herr, hres⟩ := hcode
  obtain ⟨hbusy, hdone, hhz, hie⟩ := complete_flags ht
  have hirq : t.irq = s.ie := by simp [State.irq, hdone, hie]
  refine ⟨t, ht, hbusy, hdone, herr, hres, hhz, hie, hirq, ?_⟩
  rw [e]
  exact ⟨rfl, rfl, rfl, rfl, rfl, rfl⟩

/-- Settles O30: with `RESULT = 1` the encoder wrote the frame of a consistent message, whose header, type byte and checksum
are those of `encodedFrame_tx`. -/
theorem encodedFrameHasWireFormat : Obligations.EncodedFrameHasWireFormat := by
  intro s t h hres
  obtain ⟨c, -, e⟩ | ⟨-, -, hL, m, c, e, hm, hc⟩ := execEncode_cases s <;> cases e.symm.trans h
  · cases hres
  · obtain ⟨hbytes, hck⟩ := encodedFrame_tx (s := s)
      (t := ({ s with mem := m, txLen := BitVec.ofNat 9 (s.msgPlen.toNat + 5), chk := c } : State).finish .ok true)
      rfl hm hc
    have hlen : (BitVec.ofNat 9 (s.msgPlen.toNat + 5)).toNat = s.msgPlen.toNat + 5 := by
      rw [BitVec.toNat_ofNat]
      omega
    rw [State.finish_txLen, hlen]
    refine ⟨by omega, by omega, hbytes 0 (by omega), ?_, ?_, hck⟩
    · rw [hbytes 1 (by omega)]
      simp only [State.envelopeByte, BitVec.toNat_ofNat]
      omega
    · rw [hbytes 2 (by omega)]
      exact typeByte_legal s.msgType

/-- Settles O34: a buffer byte by `complete_byteAt`, a register by `complete_regByte`; a reserved offset reads 0. -/
theorem completionStaysInWriteSet : Obligations.CompletionStaysInWriteSet := by
  intro s t off h hs hn
  obtain hb | ⟨r, rfl, hl, ho⟩ | hr := offset_cases off
  · obtain ⟨-, -, hdec, henc, hctl⟩ := not_writeSetOffset_iff.mp hn
    rw [locByte_buffer hb, locByte_buffer hb]
    refine complete_byteAt h _ (fun e => ?_) (fun e => ?_) (fun e => ?_)
    · obtain ⟨-, hpay⟩ := hdec e
      omega
    · obtain ⟨htx, -⟩ := henc e
      exact htx
    · obtain ⟨htx0, -⟩ := hctl e
      exact htx0
  · rw [ho] at hn
    rw [hl]
    exact complete_regByte h (fun e => hs (by rw [e]; rfl)) hn
  · rw [locate_reserved hr]
    rfl

/-- Settles O1: the seven rows of R84's table. -/
theorem opcodeMapBytes : Obligations.OpcodeMapBytes := by
  unfold Obligations.OpcodeMapBytes
  decide

/-- Settles O3: the seven legal bytes are the bytes with these fields. -/
theorem commandByteFormat : Obligations.CommandByteFormat := isCommand_iff_fields

/-- Settles O5: while busy the turn is the completion, and that of a legal byte is its command. -/
theorem stepRunsDecodedCommand : Obligations.StepRunsDecodedCommand := fun s _ hw hb hd =>
  ⟨fun hi => (step_no_input_busy hw hb hi).trans (complete_legal hd),
    fun rest hi => (step_engine_busy hw hb hi).trans (complete_legal (s := { s with inputs := rest }) hd)⟩

/-- Settles O6: `withFetchWord` is a busy state with the engine's turn next, and the word's one byte is its command's. -/
theorem fetchWordRunsNext : Obligations.FetchWordRunsNext := by
  intro s i w hw hd
  have hword : decode (wordBytes w 1) = .ok (i, []) := decode_cons_ok_iff.mpr ⟨hd, rfl⟩
  refine ⟨(step_engine_busy (s := s.withFetchWord 8 w) hw rfl rfl).trans (complete_legal hd), ?_⟩
  simp only [decodeTableWord, hword]

/-- Settles O8: `CMD` is among the guarded locations. -/
theorem busyCommandWriteIgnored : Obligations.BusyCommandWriteIgnored := fun _ _ _ hw hb hi =>
  step_wr_guarded_busy hw hb (by decide) hi

/-- Settles O9: the turn passes. -/
theorem idleEngineDoesNothing : Obligations.IdleEngineDoesNothing := fun _ hw hb =>
  ⟨step_no_input_idle hw hb, fun _ hi => step_engine_idle hw hb hi⟩

/-- Settles O51: the fields of the word as digits, each shifted over the ones below it. -/
theorem hostOpWords : Obligations.HostOpWords := by
  refine ⟨fun off v => ?_, fun off => ?_⟩ <;> simp only [Line.word, toNat_append_eq, BitVec.toNat_ofNat] <;> omega

end Sys2Proof.Proofs

end

/-! ## The checksum family: the laws of the checksum and its two commands (40_checksum.md) -/

section

namespace Sys2Proof.Machine

/-- One byte's checksum is its complement (R101). -/
theorem ck_single (B : Nat → Byte) (a : Nat) : ck B a (a + 1) = B a ^^^ ckSeed := by
  rw [ck_succ B le_rfl, ck_of_le B le_rfl, BitVec.xor_comm]

/-- The checksum splits at any point, up to the seed that the second part counts again (R101). -/
theorem ck_split (B : Nat → Byte) {a b c : Nat} (hab : a ≤ b) (hbc : b ≤ c) :
    ck B a b ^^^ ck B b c ^^^ ckSeed = ck B a c := by
  induction c, hbc using Nat.le_induction with
  | base => rw [ck_of_le B le_rfl, BitVec.xor_assoc, BitVec.xor_self, BitVec.xor_zero]
  | succ c hbc ih =>
    rw [ck_succ B hbc, ck_succ B (hab.trans hbc), ← ih]
    ac_rfl

/-- A run whose last byte is the checksum of the bytes before it folds to 0 (R101). -/
theorem ck_closed (F : Nat → Byte) {a m : Nat} (h : a ≤ m) (hF : F m = ck F a m) : ck F a (m + 1) = 0 := by
  simp [ck_succ F h, hF]

end Sys2Proof.Machine

namespace Sys2Proof.Proofs

open Sys2Proof.Machine

/-- Settles O19: a closed frame is 0 from byte 1 on, and splitting off byte 0 leaves that byte, the seed cancelling. -/
theorem checksumLaws : Obligations.ChecksumLaws := by
  refine ⟨fun B a => ck_of_le B le_rfl, ck_single, fun F n hn hF => ?_, fun B _ _ _ => ck_split B⟩
  have hzero : ck F 1 n = 0 := by
    obtain ⟨m, rfl⟩ : ∃ m, n = m + 1 := ⟨n - 1, by omega⟩
    exact ck_closed F (by omega) hF
  refine ⟨hzero, ?_⟩
  calc ck F 0 n
      _ = ck F 0 1 ^^^ ck F 1 n ^^^ ckSeed := (ck_split F (Nat.zero_le 1) (by omega)).symm
      _ = F 0 ^^^ ckSeed ^^^ 0 ^^^ ckSeed := by rw [hzero, ck_single]
      _ = F 0 := by simp

/-- Settles O20: the two cases of `CALC` are told apart by `RX_LEN`. -/
theorem calcResult : Obligations.CalcResult := by
  refine ⟨rfl, fun s => ?_⟩
  obtain ⟨hlen, e⟩ | ⟨hlen, e⟩ := execCalc_cases s
  · exact ⟨fun h => by omega, fun _ => e⟩
  · exact ⟨fun _ => e, fun h => by omega⟩

/-- Settles O21: the three cases of `CHECK` are told apart by `RX_LEN`, and the verdict is the decided comparison. -/
theorem checkResult : Obligations.CheckResult := by
  refine ⟨rfl, fun s => ?_⟩
  obtain ⟨hlen, e⟩ | ⟨hlen, e⟩ | ⟨hmin, hmax, e⟩ := execCheck_cases s
  · exact ⟨fun _ => e, fun h => by omega, fun _ h => by omega⟩
  · exact ⟨fun h => by omega, fun _ => e, fun h _ => by omega⟩
  · exact ⟨fun h => by omega, fun h => by omega, fun _ _ => ⟨_, decide_eq_true_iff, e⟩⟩

end Sys2Proof.Proofs

end

/-! ## The decode family: the checks of `DECODE`, the frame it accepts, and `RECV` (41_decode.md) -/

section

namespace Sys2Proof.Machine

/-! ### The failing checks of a decode (R121) -/

section

variable {s : State}

theorem decodeEnvelope_tooShort (hn : s.rxLen.toNat < 5) : s.decodeEnvelope = s.failDecode .tooShort := by
  rw [State.decodeEnvelope, if_pos hn]

theorem decodeEnvelope_badStart (hn : 5 ≤ s.rxLen.toNat) (hs : s.rx 0 ≠ s.cfg.start) :
    s.decodeEnvelope = s.failDecode .badStart := by
  rw [State.decodeEnvelope, if_neg (Nat.not_lt.mpr hn), if_pos hs]

theorem decodeEnvelope_badLength (hn : 5 ≤ s.rxLen.toNat) (hs : s.rx 0 = s.cfg.start)
    (hl : (s.rx 1).toNat ≠ s.rxLen.toNat - 2) : s.decodeEnvelope = s.failDecode .badLength := by
  rw [State.decodeEnvelope, if_neg (Nat.not_lt.mpr hn), if_neg (not_not.mpr hs), if_pos hl]

theorem decodeEnvelope_range (hn : 256 < s.rxLen.toNat) (hs : s.rx 0 = s.cfg.start)
    (hl : (s.rx 1).toNat = s.rxLen.toNat - 2) : s.decodeEnvelope = s.failDecode .range := by
  have hmin : 5 ≤ s.rxLen.toNat := by omega
  rw [State.decodeEnvelope, if_neg (Nat.not_lt.mpr hmin), if_neg (not_not.mpr hs), if_neg (not_not.mpr hl), if_pos hn]

end

/-- R122 to R125: the checks that come before the checksum pass. -/
structure State.HeaderPasses (s : State) : Prop where
  minLen : 5 ≤ s.rxLen.toNat
  maxLen : s.rxLen.toNat ≤ 256
  start : s.rx 0 = s.cfg.start
  length : (s.rx 1).toNat = s.rxLen.toNat - 2

/-- What is left of a decode once the header has passed: the checksum, which `CHK` takes whatever the verdict, then the type
byte (R125, R126). -/
theorem State.HeaderPasses.decodeEnvelope_eq {s : State} (h : s.HeaderPasses) :
    s.decodeEnvelope =
      if ck s.rx 1 (s.rxLen.toNat - 1) ≠ s.rx (s.rxLen.toNat - 1) then
        ({ s with chk := ck s.rx 1 (s.rxLen.toNat - 1) } : State).failDecode .badChecksum
      else if s.rx 2 ≠ typeRequest ∧ s.rx 2 ≠ typeResponse then
        ({ s with chk := ck s.rx 1 (s.rxLen.toNat - 1) } : State).failDecode .badType
      else ({ s with chk := ck s.rx 1 (s.rxLen.toNat - 1) } : State).acceptEnvelope s.rxLen.toNat := by
  rw [State.decodeEnvelope, if_neg (Nat.not_lt.mpr h.minLen), if_neg (not_not.mpr h.start),
    if_neg (not_not.mpr h.length), if_neg (Nat.not_lt.mpr h.maxLen)]

/-! ### The frame a decode accepts (R127) -/

/-- The receive buffer holds a frame that passes every check of R121. -/
structure State.FramePasses (s : State) : Prop extends s.HeaderPasses where
  checksum : ck s.rx 1 (s.rxLen.toNat - 1) = s.rx (s.rxLen.toNat - 1)
  type : s.rx 2 = typeRequest ∨ s.rx 2 = typeResponse

/-- Only a frame that passes every check ends a decode with `RESULT = 1` (R130). -/
theorem State.FramePasses.of_result {s : State} (h : s.decodeEnvelope.result = true) : s.FramePasses := by
  obtain ⟨c, -, e⟩ | ⟨c, -, e⟩ | ⟨hmin, hmax, hstart, hlen, hck, hty, -⟩ := s.decodeEnvelope_cases
  · rw [e] at h
    cases h
  · rw [e] at h
    cases h
  · exact ⟨⟨hmin, hmax, hstart, hlen⟩, hck, hty⟩

namespace State.FramePasses

variable {s : State} (h : s.FramePasses)

include h

theorem decodeEnvelope_eq :
    s.decodeEnvelope = ({ s with chk := ck s.rx 1 (s.rxLen.toNat - 1) } : State).acceptEnvelope s.rxLen.toNat := by
  have hty : ¬(s.rx 2 ≠ typeRequest ∧ s.rx 2 ≠ typeResponse) := fun ⟨h0, h1⟩ => h.type.elim h0 h1
  rw [h.toHeaderPasses.decodeEnvelope_eq, if_neg (not_not.mpr h.checksum), if_neg hty]

/-- `PLEN` is the payload length as a number: 251 at most, so it fits the register. -/
theorem decodeEnvelope_plen : s.decodeEnvelope.msgPlen.toNat = s.rxLen.toNat - 5 := by
  have hmax := h.maxLen
  rw [h.decodeEnvelope_eq]
  exact Nat.mod_eq_of_lt (by omega)

theorem decodeEnvelope_pay {j : Nat} (hj : j < s.rxLen.toNat - 5) : s.decodeEnvelope.pay j = s.rx (4 + j) := by
  rw [h.decodeEnvelope_eq]
  refine (Memory.read_fill_inside _ _ (Nat.le_add_right _ _) (Nat.add_lt_add_left hj _)).trans ?_
  rw [Nat.add_sub_cancel_left]
  rfl

theorem decodeEnvelope_byteAt {a : Nat} (ha : a < 0x200 ∨ 0x200 + (s.rxLen.toNat - 5) ≤ a) :
    s.decodeEnvelope.byteAt a = s.byteAt a := by
  rw [h.decodeEnvelope_eq]
  exact Memory.read_fill_outside _ _ ha

/-- R128, R155: the bytes `ENCODE` takes from a decoded message are those of the received frame, up to the checksum. -/
theorem decodeEnvelope_envelopeByte {i : Nat} (hi : i < s.rxLen.toNat - 1) :
    s.decodeEnvelope.envelopeByte i = s.rx i := by
  match i with
  | 0 =>
    rw [h.decodeEnvelope_eq]
    exact h.start.symm
  | 1 =>
    refine BitVec.eq_of_toNat_eq ?_
    have hmin := h.minLen
    have hmax := h.maxLen
    rw [h.length, State.envelopeByte, h.decodeEnvelope_plen, BitVec.toNat_ofNat]
    omega
  | 2 =>
    rw [h.decodeEnvelope_eq]
    show ((s.rx 2).extractLsb' 0 1).setWidth 8 = s.rx 2
    rcases h.type with e | e <;> rw [e] <;> rfl
  | 3 =>
    rw [h.decodeEnvelope_eq]
    rfl
  | j + 4 =>
    rw [State.envelopeByte, h.decodeEnvelope_pay (by omega), Nat.add_comm]

/-- R128: the message a decode leaves passes the checks of `ENCODE` (R151), which puts the received frame in `TX` up to the
checksum, and after it the checksum of what it wrote. -/
theorem execEncode_decodeEnvelope :
    ∃ u, execEncode s.decodeEnvelope = .next u ∧ u.err = 0 ∧ u.result = true ∧ u.txLen = s.rxLen ∧
      (∀ i, i < s.rxLen.toNat - 1 → u.tx i = s.rx i) ∧ u.tx (s.rxLen.toNat - 1) = ck u.tx 1 (s.rxLen.toNat - 1) := by
  have hmin := h.minLen
  have hmax := h.maxLen
  have hplen := h.decodeEnvelope_plen
  have hvalid : s.decodeEnvelope.valid = true := by rw [h.decodeEnvelope_eq]; rfl
  have hppres : s.decodeEnvelope.ppres = decide (s.rxLen.toNat - 5 ≠ 0) := by rw [h.decodeEnvelope_eq]; rfl
  have hconsistent : ¬((s.decodeEnvelope.ppres = false ∧ 0 < s.decodeEnvelope.msgPlen.toNat) ∨
      (s.decodeEnvelope.ppres = true ∧ s.decodeEnvelope.msgPlen.toNat = 0)) := by
    rw [hppres, hplen, decide_eq_true_iff, decide_eq_false_iff_not]
    omega
  have hbody : s.decodeEnvelope.msgPlen.toNat + 4 = s.rxLen.toNat - 1 := by omega
  have hlen : s.decodeEnvelope.msgPlen.toNat + 5 = s.rxLen.toNat := by omega
  obtain ⟨m, c, e, hm, hc⟩ := execEncode_success hvalid hconsistent (by omega)
  rw [hlen, BitVec.ofNat_toNat, BitVec.setWidth_eq] at e
  rw [hbody] at hm hc
  refine ⟨_, e, rfl, rfl, rfl, And.imp_left (fun hbytes i hi => ?_) (encodedFrame_tx (s := s.decodeEnvelope) rfl hm hc)⟩
  exact (hbytes i hi).trans (h.decodeEnvelope_envelopeByte hi)

end State.FramePasses

/-! ### What a decode reads (R131) -/

/-- `u` is `t` with other buffer bytes, at most. -/
def SameRegisters (t u : State) : Prop := u = { t with mem := u.mem }

theorem SameRegisters.ite {c c' : Prop} [Decidable c] [Decidable c'] {t t' u u' : State} (hc : c' ↔ c)
    (h : c → SameRegisters t u) (h' : ¬c → SameRegisters t' u') :
    SameRegisters (if c then t else t') (if c' then u else u') := by
  by_cases hp : c
  · rw [if_pos hp, if_pos (hc.mpr hp)]
    exact h hp
  · rw [if_neg hp, if_neg (mt hc.mp hp)]
    exact h' hp

/-- Of the success writes, only the registers copied from `RX[2]`, `RX[3]` and the last byte depend on the buffers. -/
theorem acceptEnvelope_sameRegisters {s : State} {m : Memory} {n : Nat} (h2 : ({ s with mem := m } : State).rx 2 = s.rx 2)
    (h3 : ({ s with mem := m } : State).rx 3 = s.rx 3)
    (hlast : ({ s with mem := m } : State).rx (n - 1) = s.rx (n - 1)) :
    SameRegisters (s.acceptEnvelope n) (({ s with mem := m } : State).acceptEnvelope n) := by
  simp only [SameRegisters, State.acceptEnvelope, h2, h3, hlast]
  rfl

/-- Each check, once reached, reads a byte of `RX[0 .. min(RX_LEN, 256))`. -/
theorem decodeEnvelope_sameRegisters {s : State} {m : Memory}
    (h : ∀ i, i < min s.rxLen.toNat 256 → ({ s with mem := m } : State).rx i = s.rx i) :
    SameRegisters s.decodeEnvelope ({ s with mem := m } : State).decodeEnvelope := by
  unfold State.decodeEnvelope
  refine .ite .rfl (fun _ => rfl) fun hmin => ?_
  have hmin : 5 ≤ s.rxLen.toNat := Nat.not_lt.mp hmin
  refine .ite (by rw [h 0 (by omega)]) (fun _ => rfl) fun _ => ?_
  refine .ite (by rw [h 1 (by omega)]) (fun _ => rfl) fun _ => ?_
  refine .ite .rfl (fun _ => rfl) fun hmax => ?_
  have hmax : s.rxLen.toNat ≤ 256 := Nat.not_lt.mp hmax
  have hck : ck ({ s with mem := m } : State).rx 1 (s.rxLen.toNat - 1) = ck s.rx 1 (s.rxLen.toNat - 1) :=
    ck_congr fun i _ hi => h i (by omega)
  have hlast := h (s.rxLen.toNat - 1) (by omega)
  have htype := h 2 (by omega)
  simp only [hck, hlast, htype]
  exact .ite .rfl (fun _ => rfl) fun _ => .ite .rfl (fun _ => rfl) fun _ =>
    acceptEnvelope_sameRegisters (s := { s with chk := ck s.rx 1 (s.rxLen.toNat - 1) }) htype (h 3 (by omega)) hlast

end Sys2Proof.Machine

namespace Sys2Proof.Proofs

open Sys2Proof.Machine

/-- Settles O32: the message the decode left is encoded from the received bytes, and the checksum computed over them is the
one that the decode found in the frame. -/
theorem decodeThenEncodeRoundTrip : Obligations.DecodeThenEncodeRoundTrip := by
  intro s t h hres
  cases h
  have hf := State.FramePasses.of_result hres
  obtain ⟨u, e, herr, hok, hlen, hbytes, hlast⟩ := hf.execEncode_decodeEnvelope
  refine ⟨u, e, herr, hok, hlen, fun k hk => ?_⟩
  rcases Nat.lt_or_eq_of_le (Nat.le_sub_one_of_lt hk) with hk | rfl
  · exact hbytes k hk
  · rw [hlast, ck_congr fun i _ hi => hbytes i hi, hf.checksum]

/-- Settles O22: the passed checks leave the success writes, of which the payload is the only one to the buffers. -/
theorem decodeValidEnvelope : Obligations.DecodeValidEnvelope := by
  rintro s _ rfl hmin hmax hstart hlen hck hty
  have hf : s.FramePasses := ⟨⟨hmin, hmax, hstart, hlen⟩, hck, hty⟩
  refine ⟨_, rfl, ?_, hf.decodeEnvelope_plen, fun j hj => hf.decodeEnvelope_pay hj,
    fun a ha => hf.decodeEnvelope_byteAt ha⟩
  rw [hf.decodeEnvelope_eq]
  simp only [Nat.pos_iff_ne_zero]
  rfl

/-- Settles O23: one lemma per check; `RX[1]` is a byte, so no length from 258 on matches it. -/
theorem decodeFailures : Obligations.DecodeFailures := by
  rintro s _ rfl
  have hbyte : (s.rx 1).toNat < 256 := (s.rx 1).isLt
  refine ⟨fun hn => congrArg _ (decodeEnvelope_tooShort hn),
    fun hn hs => congrArg _ (decodeEnvelope_badStart hn hs),
    fun hn hs hl => congrArg _ (decodeEnvelope_badLength hn hs hl), fun hn => by omega,
    fun hn hs hl => ⟨by omega, congrArg _ (decodeEnvelope_range hn hs hl)⟩, ?_, ?_⟩
  · intro hmin hmax hs hl hck
    refine congrArg _ ((State.HeaderPasses.decodeEnvelope_eq ⟨hmin, hmax, hs, hl⟩).trans ?_)
    rw [if_pos hck]
    rfl
  · intro hmin hmax hs hl hck h0 h1
    refine congrArg _ ((State.HeaderPasses.decodeEnvelope_eq ⟨hmin, hmax, hs, hl⟩).trans ?_)
    rw [if_neg (not_not.mpr hck), if_pos ⟨h0, h1⟩]
    rfl

/-- Settles O24: the two decodes end with the same registers, so both accept a frame or none does, and an accepted payload
lies inside the frame. -/
theorem decodeReadsFrameOnly : Obligations.DecodeReadsFrameOnly := by
  intro s m h
  have hsame := decodeEnvelope_sameRegisters h
  refine ⟨_, _, rfl, rfl, hsame, fun ht j hj => ?_⟩
  have hu : ({ s with mem := m } : State).decodeEnvelope.result = true := by
    rw [hsame]
    exact ht
  have hf := State.FramePasses.of_result ht
  rw [hf.decodeEnvelope_plen] at hj
  have hmax := hf.maxLen
  rw [hf.decodeEnvelope_pay hj, (State.FramePasses.of_result hu).decodeEnvelope_pay hj, h _ (by omega)]

/-- Settles O25: the three cases of `RECV` are told apart by `RX_LEN` and `RX[0]`. -/
theorem recvResult : Obligations.RecvResult := by
  refine ⟨rfl, fun s => ?_⟩
  obtain ⟨h1, hack, e⟩ | ⟨h1, hack, hnack, e⟩ | ⟨hno, e⟩ := execRecv_cases s
  · exact ⟨fun _ _ => e, fun _ h => absurd hack h, fun h => absurd ⟨h1, .inl hack⟩ h⟩
  · exact ⟨fun _ h => absurd h hack, fun _ _ _ => e, fun h => absurd ⟨h1, .inr hnack⟩ h⟩
  · exact ⟨fun h ha => absurd ⟨h, .inl ha⟩ hno, fun h _ hn => absurd ⟨h, .inr hn⟩ hno, fun _ => e⟩

end Sys2Proof.Proofs

end

/-! ## The encode family: the checks of `ENCODE`, the frame it writes, and the control frames (42_encode.md) -/

section

namespace Sys2Proof.Machine

/-! ### The checks of an encode (R151) -/

section

variable {s : State}

/-- R153: the payload check fails. -/
abbrev State.PayloadInconsistent (s : State) : Prop :=
  (s.ppres = false ∧ 0 < s.msgPlen.toNat) ∨ (s.ppres = true ∧ s.msgPlen.toNat = 0)

theorem not_payloadInconsistent_iff : ¬s.PayloadInconsistent ↔ s.ppres = decide (0 < s.msgPlen.toNat) := by
  cases hp : s.ppres <;> simp [State.PayloadInconsistent, hp, Nat.pos_iff_ne_zero]

theorem execEncode_invalid (hv : s.valid = false) : execEncode s = .next (s.finish .invalid false) := by
  rw [execEncode, if_pos hv, State.raise]

theorem execEncode_inconsistentPayload (hv : s.valid = true) (hp : s.PayloadInconsistent) :
    execEncode s = .next (s.finish .inconsistentPayload false) := by
  rw [execEncode, if_neg (by simp [hv]), if_pos hp, State.raise]

theorem execEncode_tooLong (hv : s.valid = true) (hp : ¬s.PayloadInconsistent) (hl : 251 < s.msgPlen.toNat) :
    execEncode s = .next (s.finish .tooLong false) := by
  rw [execEncode, if_neg (by simp [hv]), if_neg hp, if_pos hl, State.raise]

/-- R157: no check and no byte of the frame depends on `MSG_CS`, so the encode of the same message with another one ends
alike, and keeps it. -/
theorem execEncode_withMsgCs {t : State} (h : execEncode s = .next t) (v : Byte) :
    execEncode { s with msgCs := v } = .next { t with msgCs := v } := by
  by_cases hv : s.valid = false
  · cases (execEncode_invalid hv).symm.trans h
    exact execEncode_invalid (s := { s with msgCs := v }) hv
  have hv : s.valid = true := Bool.of_not_eq_false hv
  by_cases hp : s.PayloadInconsistent
  · cases (execEncode_inconsistentPayload hv hp).symm.trans h
    exact execEncode_inconsistentPayload (s := { s with msgCs := v }) hv hp
  by_cases hl : 251 < s.msgPlen.toNat
  · cases (execEncode_tooLong hv hp hl).symm.trans h
    exact execEncode_tooLong (s := { s with msgCs := v }) hv hp hl
  have hmax : s.msgPlen.toNat ≤ 251 := Nat.not_lt.mp hl
  obtain ⟨_, _, e, rfl, rfl⟩ := execEncode_success hv hp hmax
  obtain ⟨_, _, e', rfl, rfl⟩ := execEncode_success (s := { s with msgCs := v }) hv hp hmax
  cases e.symm.trans h
  exact e'

/-- R155, R158: an encode writes no buffer byte outside `TX[0 .. L+5)`, and none at all where the message is too long. -/
theorem execEncode_byteAt {t : State} (h : execEncode s = .next t) {a : Nat}
    (ha : s.msgPlen.toNat ≤ 251 → a < 0x100 ∨ 0x100 + (s.msgPlen.toNat + 5) ≤ a) : t.byteAt a = s.byteAt a := by
  obtain ⟨c, -, e⟩ | ⟨-, -, hl, m, c, e, hm, -⟩ := execEncode_cases s <;> cases e.symm.trans h
  · rfl
  · show m.read s.epoch a = s.mem.read s.epoch a
    rw [hm, Memory.read_write_other _ (by omega), Memory.read_fill_outside _ _ (by omega)]

/-- R157: an encode writes no message register. -/
theorem execEncode_message {t : State} (h : execEncode s = .next t) :
    t.msgType = s.msgType ∧ t.msgFid = s.msgFid ∧ t.msgPlen = s.msgPlen ∧ t.valid = s.valid ∧ t.ppres = s.ppres ∧
      t.msgCs = s.msgCs := by
  obtain ⟨c, -, e⟩ | ⟨-, -, -, m, c, e, -, -⟩ := execEncode_cases s <;> cases e.symm.trans h <;>
    exact ⟨rfl, rfl, rfl, rfl, rfl, rfl⟩

end

/-! ### The control frames (R160, R161) -/

/-- A control frame writes its one byte to `TX[0]` and no other byte of the buffers. -/
theorem State.byteAt_emitControl (s : State) (b : Byte) (a : Nat) :
    (s.emitControl b).byteAt a = if a = 0x100 then b else s.byteAt a := State.byteAt_store s 0x100 a b

end Sys2Proof.Machine

namespace Sys2Proof.Proofs

open Sys2Proof.Machine

/-- Settles O26: the checks pass, and the frame is read back by `encodedFrame_tx`. -/
theorem encodeValidMessage : Obligations.EncodeValidMessage := by
  rintro s _ rfl hv hp hmax
  obtain ⟨m, c, e, hm, hc⟩ := execEncode_success hv (not_payloadInconsistent_iff.mpr hp) hmax
  obtain ⟨hbytes, hck⟩ := encodedFrame_tx (s := s)
    (t := ({ s with mem := m, txLen := BitVec.ofNat 9 (s.msgPlen.toNat + 5), chk := c } : State).finish .ok true)
    rfl hm hc
  refine ⟨_, e, ?_, ?_, hbytes 0 (by omega), ?_, ?_, hbytes 3 (by omega), fun j hj => ?_, hck,
    fun a ha => execEncode_byteAt e fun _ => ha⟩
  · rw [ck_congr fun i _ hi => hbytes i hi, ← hc]
    rfl
  · rw [State.finish_txLen, BitVec.toNat_ofNat]
    omega
  · rw [hbytes 1 (by omega), State.envelopeByte, BitVec.toNat_ofNat]
    omega
  · rw [hbytes 2 (by omega)]
    exact BitVec.toNat_setWidth_of_le (by decide)
  · rw [hbytes (4 + j) (by omega), Nat.add_comm, State.envelopeByte]

/-- Settles O31: the frame of O26, received byte for byte, meets every premise of O22, whose success writes then give the
message back. -/
theorem encodeThenDecodeRoundTrip : Obligations.EncodeThenDecodeRoundTrip := by
  intro s L hL hmax hv hp
  have hp' : s.ppres = decide (0 < L) := by simp only [hp, Nat.pos_iff_ne_zero]
  obtain ⟨t, ht, -, hlen, hstart, hlength, htype, hfid, hpay, hck, -⟩ := encodeValidMessage s L hL hv hp' hmax
  refine ⟨t, ht, fun r hcfg hrxLen hrx => ?_⟩
  rw [hlen] at hrx
  have hn : r.rxLen.toNat = L + 5 := by rw [hrxLen, hlen]
  have hrxType : (r.rx 2).toNat = s.msgType.toNat := by rw [hrx 2 (by omega), htype]
  have hrxCk : ck r.rx 1 (L + 4) = r.rx (L + 4) := by
    rw [ck_congr fun i _ hi => hrx i (by omega), hrx (L + 4) (by omega), hck]
  have hrxLegal : r.rx 2 = 0x00 ∨ r.rx 2 = 0x01 := by
    have hbit : s.msgType.toNat < 2 := s.msgType.isLt
    bv_omega
  obtain ⟨u, hu, e, hplen, hupay, -⟩ := decodeValidEnvelope r (L + 5) hn (by omega) (by omega)
    (by rw [hrx 0 (by omega), hstart, hcfg]) (by rw [hrx 1 (by omega), hlength]; omega) hrxCk hrxLegal
  have hutype : u.msgType = s.msgType := by
    rw [e]
    show BitVec.ofNat 1 (r.rx 2).toNat = s.msgType
    rw [hrxType, BitVec.ofNat_toNat, BitVec.setWidth_eq]
  have hufid : u.msgFid = s.msgFid := by
    rw [e]
    exact (hrx 3 (by omega)).trans hfid
  have huplen : u.msgPlen = s.msgPlen := BitVec.eq_of_toNat_eq (by omega)
  have huppres : u.ppres = s.ppres := by rw [e, hp']; rfl
  have hucs : u.msgCs = t.tx (L + 4) := by
    rw [e]
    exact hrx (L + 4) (by omega)
  refine ⟨u, hu, by rw [e], by rw [e], by rw [e], hutype, hufid, huplen, huppres, by rw [e], fun j hj => ?_, hucs⟩
  rw [hupay j (by omega), hrx (4 + j) (by omega), hpay j hj]

/-- Settles O27: one lemma per check. -/
theorem encodeFailures : Obligations.EncodeFailures := by
  rintro s _ rfl
  refine ⟨fun hv => execEncode_invalid hv, fun hv hp hl => execEncode_inconsistentPayload hv (.inl ⟨hp, hl⟩),
    fun hv hp hl => execEncode_inconsistentPayload hv (.inr ⟨hp, hl⟩), fun hv hp hl => ?_⟩
  refine execEncode_tooLong hv (not_payloadInconsistent_iff.mpr ?_) hl
  rw [hp, decide_eq_true (by omega)]

/-- Settles O28: an encode answers a next state in every case, and `execEncode_withMsgCs` gives its twin. -/
theorem encodeLeavesMessageIntact : Obligations.EncodeLeavesMessageIntact := by
  intro s v
  obtain ⟨t, h, -⟩ := exec_shape .encode s
  obtain ⟨htype, hfid, hplen, hvalid, hppres, hcs⟩ := execEncode_message h
  refine ⟨t, h, execEncode_withMsgCs h v, htype, hfid, hplen, hvalid, hppres, hcs,
    fun j _ => execEncode_byteAt h fun hmax => .inr ?_⟩
  show _ ≤ 0x200 + j
  omega

/-- Settles O29: both commands are `emitControl` of a configured byte. -/
theorem controlFrames : Obligations.ControlFrames :=
  ⟨decodeByte_encodeByte .ctrlAck, decodeByte_encodeByte .ctrlNack, fun s =>
    ⟨⟨_, rfl, rfl, s.byteAt_emitControl s.cfg.ack⟩, ⟨_, rfl, rfl, s.byteAt_emitControl s.cfg.nack⟩⟩⟩

end Sys2Proof.Proofs

end

/-! ## The exceptions family: where a step stops, and that no run from a good state does (60_exceptions.md) -/

section

namespace Sys2Proof.Machine

/-! ### The reserved error codes -/

/-- R171, log 10: a host read of `ERR` stops at a code that no command produces. -/
theorem hostRead_err_reserved {s : State} (he : 11 ≤ s.err.toNat) :
    hostRead s (.reg .err) = .fault .reservedErrCode := by
  have hp : codeProduced s.err = false := by
    rw [codeProduced, decide_eq_false_iff_not]
    omega
  rw [hostRead, if_pos ⟨rfl, hp⟩]

/-! ### When a step answers a next state -/

/-- R170: the engine's turn always answers a next state, since every completion does. -/
theorem engineTurn_next (s : State) : ∃ t, engineTurn s = .next t := by
  obtain ⟨t, ht, -⟩ := complete_shape s
  rw [engineTurn]
  split
  · exact ⟨t, ht⟩
  · exact ⟨s, rfl⟩

/-- An access stops at a reserved error code or outside the window (logs 10 and 3), and the hypotheses exclude both. -/
theorem hostAccess_next {s : State} {op : HostOp} (he : s.err.toNat ≤ 10) (ho : opInWindow s.cfg op) :
    ∃ t, hostAccess s op = .next t := by
  cases op with
  | rd a =>
    obtain ⟨off, rfl⟩ := busAddr_of_inWindow ho
    refine ⟨_, Eq.trans ?_ (hostRead_ok he (locate off))⟩
    simp only [hostAccess, offsetOf_busAddr]
  | wr a v =>
    obtain ⟨off, rfl⟩ := busAddr_of_inWindow ho
    refine ⟨hostWrite s (locate off) v, ?_⟩
    simp only [hostAccess, offsetOf_busAddr]

/-- R170: no event stops a good state whose pending accesses are accesses to the window. -/
theorem step_next {s : State} (hs : Inv s) (hin : inputsInWindow s) : ∃ t, step s = .next t := by
  cases hi : s.inputs with
  | nil =>
    rw [step_no_input hs.cfgWf hi]
    exact engineTurn_next s
  | cons e rest =>
    cases e with
    | engine =>
      rw [step_engine hs.cfgWf hi]
      exact engineTurn_next _
    | reset => exact ⟨_, step_reset hs.cfgWf hi⟩
    | host op =>
      have ho : opInWindow s.cfg op := hin op (hi ▸ List.mem_cons_self)
      rw [step_host hs.cfgWf hi]
      exact hostAccess_next (s := { s with inputs := rest }) hs.errProduced ho

/-! ### The pending events -/

theorem hostWrite_inputs (s : State) (l : Loc) (v : Byte) : (hostWrite s l v).inputs = s.inputs := by
  rw [hostWrite]
  split
  · rfl
  · cases l with
    | buf b i => rfl
    | reg r => cases r <;> rfl
    | reserved => rfl

theorem complete_inputs {s t : State} (h : complete s = .next t) : t.inputs = s.inputs := by
  obtain ⟨t', h', e⟩ := complete_shape s
  cases h.symm.trans h'
  rw [e]

/-- R176: a step takes the next pending event and leaves the others pending. -/
theorem step_inputs {s t : State} (h : step s = .next t) : t.inputs = s.inputs.tail := by
  obtain ⟨-, ⟨-, -, rfl⟩ | ⟨-, -, hc⟩ | ⟨-, rfl⟩ | ⟨off, -, hr⟩ | ⟨off, v, -, rfl⟩⟩ := step_cases h
  · rfl
  · exact complete_inputs hc
  · rfl
  · rw [hostRead_next hr]
  · exact hostWrite_inputs { s with inputs := s.inputs.tail } (locate off) v

/-- The window stays where it is (R45), and no step adds an access. -/
theorem step_inputsInWindow {s t : State} (hin : inputsInWindow s) (h : step s = .next t) : inputsInWindow t := by
  have hcfg : t.cfg = s.cfg := Proofs.configurationIsFixed.1 s t h
  intro op hop
  rw [step_inputs h] at hop
  rw [hcfg]
  exact hin op (List.mem_of_mem_tail hop)

/-! ### Runs -/

/-- Progress (`step_next`) and preservation (`step_inv`, `step_inputsInWindow`), along a run of any length. -/
theorem run_safe (n : Nat) {s : State} (hs : Inv s) (hin : inputsInWindow s) : SafeRun n s := by
  induction n generalizing s with
  | zero => exact ⟨s, rfl, hs⟩
  | succ n ih =>
    obtain ⟨u, hu⟩ := step_next hs hin
    obtain ⟨t, hrun, ht⟩ := ih (step_inv hs hu) (step_inputsInWindow hin hu)
    exact ⟨t, (run_succ hu).trans hrun, ht⟩

end Sys2Proof.Machine

namespace Sys2Proof.Proofs

open Sys2Proof.Machine

/-- Settles O50: from a good state a step answers a next state that is good again, and `run_safe` is the induction over the
steps of the run. -/
theorem everyRunIsSafe : Obligations.EveryRunIsSafe := fun n _ hs hin => run_safe n hs hin

/-- Settles O47: offset 0x302 is `ERR`, and its read stops there. -/
theorem reservedErrCodeFaults : Obligations.ReservedErrCodeFaults := by
  intro s rest hw he hi
  rw [step_rd hw hi, locate_of_toNat (r := .err) rfl]
  exact hostRead_err_reserved (s := { s with inputs := rest }) he

end Sys2Proof.Proofs

end

/-! ## The reset and hazards family: accesses while a command is in flight, and reset (70_reset_and_hazards.md) -/

section

namespace Sys2Proof.Machine

/-! ### The write hazard (R205) -/

/-- The other half of `toNat_of_guarded`: at these offsets a write is held off while a command is in flight. -/
theorem guarded_of_toNat {off : Offset}
    (h : off.toNat ≤ 0x300 ∨ off.toNat = 0x304 ∨ off.toNat = 0x305 ∨ (0x308 ≤ off.toNat ∧ off.toNat ≤ 0x30C)) :
    (locate off).guarded = true := by
  obtain hb | ⟨r, -, hl, ho⟩ | hr := offset_cases off
  · obtain ⟨b, i, e, -⟩ := locate_buffer hb
    rw [e]
    rfl
  · rw [hl]
    rw [ho] at h
    revert h
    cases r <;> decide
  · omega

/-- The read-only registers and the reserved offsets raise no hazard. -/
theorem unguarded_of_readOnly {off : Offset}
    (h : off.toNat = 0x302 ∨ off.toNat = 0x306 ∨ off.toNat = 0x307 ∨ 0x30D ≤ off.toNat) :
    (locate off).guarded = false :=
  Bool.eq_false_of_not_eq_true fun hg => by
    have := toNat_of_guarded hg
    omega

/-! ### The model's write sets are R94's -/

theorem decodeWrites_offset {l : Loc} (h : decodeWrites l = true) :
    (0x308 ≤ l.offset ∧ l.offset ≤ 0x30E) ∨ (0x200 ≤ l.offset ∧ l.offset < 0x200 + 252) := by
  cases l with
  | buf b i =>
    cases b with
    | pay =>
      have hi : i.val < 252 := of_decide_eq_true h
      simp only [Loc.offset, Buf.base]
      omega
    | _ => cases h
  | reg r =>
    revert h
    cases r <;> decide
  | reserved => cases h

theorem encodeWrites_offset {l : Loc} (h : encodeWrites l = true) :
    (0x100 ≤ l.offset ∧ l.offset < 0x200) ∨ l.offset = 0x306 ∨ l.offset = 0x307 ∨ l.offset = 0x30D := by
  cases l with
  | buf b i =>
    cases of_decide_eq_true h
    have hi := i.isLt
    simp only [Loc.offset, Buf.base]
    omega
  | reg r =>
    revert h
    cases r <;> decide
  | reserved => cases h

theorem controlWrites_offset {l : Loc} (h : controlWrites l = true) :
    l.offset = 0x100 ∨ l.offset = 0x306 ∨ l.offset = 0x307 := by
  cases l with
  | buf b i =>
    cases b with
    | tx =>
      have hi : i.val = 0 := of_decide_eq_true h
      simp only [Loc.offset, Buf.base]
      omega
    | _ => cases h
  | reg r =>
    revert h
    cases r <;> decide
  | reserved => cases h

/-- R94: what the model lets a command write lies in the row of its command byte. -/
theorem commandWrites_offset {i : Instr} {l : Loc} (h : commandWrites i l = true) :
    writeSetOffset (encodeByte i) l.offset := by
  cases i with
  | calcSum =>
    cases of_decide_eq_true h
    exact .inr (.inl ⟨.inl rfl, rfl⟩)
  | check =>
    cases of_decide_eq_true h
    exact .inr (.inl ⟨.inr rfl, rfl⟩)
  | decode => exact .inr (.inr (.inl ⟨.inl rfl, decodeWrites_offset h⟩))
  | recv => exact .inr (.inr (.inl ⟨.inr rfl, decodeWrites_offset h⟩))
  | encode => exact .inr (.inr (.inr (.inl ⟨rfl, encodeWrites_offset h⟩)))
  | ctrlAck => exact .inr (.inr (.inr (.inr ⟨.inl rfl, controlWrites_offset h⟩)))
  | ctrlNack => exact .inr (.inr (.inr (.inr ⟨.inr rfl, controlWrites_offset h⟩)))

/-- R94: a location the model races on is `STATUS` or one of the write set. -/
theorem inWriteSet_offset {op : Byte} {l : Loc} (h : inWriteSet op l = true) :
    l = .reg .status ∨ writeSetOffset op l.offset := by
  simp only [inWriteSet, Bool.or_eq_true, decide_eq_true_eq] at h
  obtain (rfl | rfl) | h := h
  · exact .inr (.inl rfl)
  · exact .inl rfl
  · cases hd : decodeByte op with
    | ok i =>
      rw [hd] at h
      rw [decodeByte_inv hd]
      exact .inr (commandWrites_offset h)
    | error r =>
      rw [hd] at h
      cases h

/-- An offset outside the write set, `STATUS` apart, names a location the model does not race on. -/
theorem inWriteSet_locate {op : Byte} {off : Offset} (hs : off ≠ 0x301) (hn : ¬writeSetOffset op off.toNat) :
    inWriteSet op (locate off) = false := by
  refine Bool.eq_false_of_not_eq_true fun h => ?_
  by_cases hr : 0x30F ≤ off.toNat
  · obtain ⟨-, -, hres⟩ := inWriteSet_false op
    rw [locate_reserved hr, hres] at h
    cases h
  · obtain e | hw := inWriteSet_offset h
    · exact hs (eq_of_locate e)
    · exact hn (offset_locate (off := off) (by omega) ▸ hw)

/-! ### The read hazard (R206) -/

/-- A location the command in flight does not write reads exactly. -/
theorem readByte_outside {s : State} {l : Loc} (h : inWriteSet s.op l = false) : s.readByte l = s.locByte l := by
  simp [State.readByte, State.raced, h]

/-- A read returns the stored byte or, only while a command is in flight, the one its completion writes. -/
theorem readByte_cases (s : State) (l : Loc) : s.readByte l = s.locByte l ∨ s.readByte l = s.newByte l := by
  rw [State.readByte]
  split
  · exact .inr rfl
  · exact .inl rfl

theorem completed_eq {s u : State} (h : complete s = .next u) : s.completed = u := by rw [State.completed, h]

theorem readByte_old_or_new {s u : State} (h : complete s = .next u) {l : Loc} (hl : l ≠ .reg .status) :
    s.readByte l = s.locByte l ∨ s.readByte l = u.locByte l := by
  have hnew : s.newByte l = u.locByte l := by
    rw [← completed_eq h]
    cases l with
    | reg r =>
      cases r with
      | status => exact absurd rfl hl
      | _ => rfl
    | _ => rfl
  exact hnew ▸ readByte_cases s l

/-- Of `STATUS` only `RESULT` races: `BUSY`, `DONE` and `HZ` are exact. -/
theorem readByte_status {s u : State} (h : complete s = .next u) :
    ∃ res, (res = s.result ∨ res = u.result) ∧ s.readByte (.reg .status) = statusBits s.busy s.done res s.hz := by
  obtain e | e := readByte_cases s (.reg .status)
  · exact ⟨s.result, .inl rfl, e⟩
  · exact ⟨u.result, .inr rfl, by rw [e, State.newByte, completed_eq h]⟩

/-- R205: `s` after accesses of the host while a command is in flight: they reach `HZ` and `IE` (`DONE` is 0 since the
acceptance) and the model's own fields. -/
def State.withEnv (s : State) (hz ie : Bool) (n : Nat) (ins : List Input) (log : List Byte) : State :=
  { s with hz := hz, ie := ie, draws := n, inputs := ins, readLog := log }

theorem complete_withEnv {s u : State} (h : complete s = .next u) (hz ie : Bool) (n : Nat) (ins : List Input)
    (log : List Byte) : complete (s.withEnv hz ie n ins log) = .next (u.withEnv hz ie n ins log) :=
  complete_env h s.busy s.done hz ie n ins log

/-- No location but `STATUS` and `CTRL` shows what an acceptance or the host's accesses after it reach. -/
theorem locByte_env (s : State) {l : Loc} (hs : l ≠ .reg .status) (hc : l ≠ .reg .ctrl) (o : Byte) (b d hz ie : Bool)
    (n : Nat) (ins : List Input) (log : List Byte) :
    (State.withEnv { s with op := o, busy := b, done := d } hz ie n ins log).locByte l = s.locByte l := by
  cases l with
  | reg r =>
    cases r with
    | status => exact absurd rfl hs
    | ctrl => exact absurd rfl hc
    | _ => rfl
  | _ => rfl

/-- R24: the bits of a `STATUS` byte. -/
theorem statusBits_bits (b d r z : Bool) :
    (statusBits b d r z).getLsbD 0 = b ∧ (statusBits b d r z).getLsbD 1 = d ∧ (statusBits b d r z).getLsbD 2 = r ∧
      (statusBits b d r z).getLsbD 3 = z ∧ (statusBits b d r z).toNat < 16 := by
  revert b d r z
  decide

/-! ### Host reads, busy or idle -/

/-- Only a read of `ERR` can stop (R171); any other answers in every state. -/
theorem hostRead_of_ne_err {s : State} {l : Loc} (hl : l ≠ .reg .err) :
    hostRead s l = .next
      { s with readLog := s.readByte l :: s.readLog, draws := if s.raced l then s.draws + 1 else s.draws } := by
  rw [hostRead, if_neg fun h => hl h.1]

/-- Outside the write set a read returns the stored byte and draws nothing, busy or idle. -/
theorem hostRead_outside {s : State} {l : Loc} (hl : l ≠ .reg .err) (h : inWriteSet s.op l = false) :
    hostRead s l = .next { s with readLog := s.locByte l :: s.readLog } := by
  have hr : s.raced l = false := by simp [State.raced, h]
  rw [hostRead_of_ne_err hl, readByte_outside h, hr]
  rfl

section

variable {s : State} {off : Offset} {rest : List Input} (hw : s.cfg.wf = true)

include hw

/-- R211: a `STATUS` read answers in every state, with `BUSY` and `DONE` as they are. -/
theorem step_rd_status (hi : s.inputs = .host (.rd (busAddr s.cfg 0x301)) :: rest) :
    ∃ t x, step s = .next t ∧ t.readLog = x :: s.readLog ∧ x.getLsbD 0 = s.busy ∧ x.getLsbD 1 = s.done := by
  obtain ⟨u, hu, -⟩ := complete_shape { s with inputs := rest }
  obtain ⟨res, -, hx⟩ := readByte_status hu
  obtain ⟨hbusy, hdone, -⟩ := statusBits_bits s.busy s.done res s.hz
  rw [step_rd hw hi, locate_of_toNat (r := .status) rfl]
  exact ⟨_, _, hostRead_of_ne_err nofun, rfl, by rw [hx, hbusy], by rw [hx, hdone]⟩

/-- R206: the state a command byte and the accesses after it leave, and the byte that the read then returns. -/
theorem run_cmd_then_accesses_then_read {v : Byte} {ops : List HostOp} (hb : s.busy = false) (he : s.err.toNat ≤ 10)
    (ho : ∀ op ∈ ops, opInWindow s.cfg op)
    (hi : s.inputs = .host (.wr (busAddr s.cfg 0x300) v) ::
      (ops.map .host ++ .host (.rd (busAddr s.cfg off)) :: rest)) :
    ∃ hz ie dr log t,
      core.run (ops.length + 1) s =
        .next ((s.accept v).withEnv hz ie dr (.host (.rd (busAddr s.cfg off)) :: rest) log) ∧
      core.run (ops.length + 2) s = .next t ∧
      t.readLog = ((s.accept v).withEnv hz ie dr rest log).readByte (locate off) :: log := by
  obtain ⟨hz, ie, dr, log, hrun⟩ := run_cmd_then_accesses hw hb he ho hi
  have hread := (step_rd (s := (s.accept v).withEnv hz ie dr (.host (.rd (busAddr s.cfg off)) :: rest) log) hw rfl).trans
    (hostRead_ok (s := (s.accept v).withEnv hz ie dr rest log) he (locate off))
  exact ⟨hz, ie, dr, log, _, hrun, (run_add hrun).trans (run_one hread), rfl⟩

end

/-! ### Reset -/

/-- R201: a reset event puts every register field where `State.reset` has it, whatever the state. -/
theorem atResetValues_resetEvent (s : State) : atResetValues s.resetEvent := Proofs.resetStateValues

/-- R44: after a reset event no byte is listed, so every byte is the new epoch's draw. -/
theorem byteAt_resetEvent (s : State) (a : Nat) : s.resetEvent.byteAt a = Config.resetByte (s.epoch + 1) a := rfl

end Sys2Proof.Machine

namespace Sys2Proof.Proofs

open Sys2Proof.Machine

/-- Settles O17: the state at the read is the accepted one but for what the accesses reach (`State.withEnv`), which no
completion reads and no location shows outside `STATUS` and `CTRL`. So old and new are those of the acceptance; outside the
write set no read races. -/
theorem readHazard : Obligations.ReadHazard := by
  refine ⟨fun s v ops off rest hw hb he ho hi => ?_, fun s off rest hw hb he hi => step_rd_idle hw hb he hi⟩
  obtain ⟨hz, ie, dr, log, t, hrun, hread, hlog⟩ := run_cmd_then_accesses_then_read hw hb he ho hi
  obtain ⟨u, hu, -⟩ := complete_shape (s.accept v)
  have hnew := complete_withEnv hu hz ie dr rest log
  refine ⟨_, t, u, _, hrun, hread, hu, hlog, fun hs => ?_, fun hs hin => ?_, fun hs hout => ?_⟩
  · obtain ⟨res, hres, hx⟩ := readByte_status hnew
    obtain ⟨hbusy, hdone, hresult, hhz, hlt⟩ := statusBits_bits true false res hz
    rw [hs, locate_of_toNat (r := .status) rfl, hx]
    exact ⟨hbusy, hdone, hresult.symm ▸ hres, hhz, hlt⟩
  · have hstatus : locate off ≠ .reg .status := fun e => hs (eq_of_locate e)
    have hctrl : locate off ≠ .reg .ctrl := fun e => by
      have hoff := toNat_of_locate e
      simp only [writeSetOffset, Reg.offset] at hin hoff
      omega
    have hold : _ = s.locByte (locate off) := locByte_env s hstatus hctrl v true false hz ie dr rest log
    have hwritten : _ = u.locByte (locate off) := locByte_env u hstatus hctrl u.op u.busy u.done hz ie dr rest log
    exact (readByte_old_or_new hnew hstatus).imp (·.trans hold) (·.trans hwritten)
  · exact readByte_outside (inWriteSet_locate hs hout)

/-- Settles O11: the guarded offsets are held off and flagged; at any other the write acts as when idle, which at the
read-only and reserved offsets is not at all. -/
theorem busyWriteHazard : Obligations.BusyWriteHazard := by
  intro s off v rest hw hb hi
  have at_reg (r : Reg) (hg : (Loc.reg r).guarded = false) (h : off.toNat = r.offset) :
      step s = .next (({ s with inputs := rest } : State).applyWrite (.reg r) v) :=
    have hl := locate_of_toNat h
    hl ▸ step_wr_unguarded hw (hl ▸ hg) hi
  refine ⟨fun h => step_wr_guarded_busy hw hb (guarded_of_toNat h) hi, at_reg .status rfl, at_reg .ctrl rfl, fun h => ?_⟩
  rw [step_wr_unguarded hw (unguarded_of_readOnly h) hi, applyWrite_readOnly h]

/-- Settles O18: acceptance sets `BUSY` and clears `DONE`, the completion does the reverse, and a `STATUS` read shows both
flags as they are. -/
theorem statusPollIsExact : Obligations.StatusPollIsExact := by
  intro s v rest hw hb
  refine ⟨fun hi => ?_, fun hi => ?_⟩
  · have haccept := step_cmd_idle hw hb hi
    obtain ⟨t, x, hread, hlog, hbusy, hdone⟩ :=
      step_rd_status (s := State.accept { s with inputs := .host (.rd (busAddr s.cfg 0x301)) :: rest } v) hw rfl
    exact ⟨t, x, (run_succ haccept).trans (run_one hread), hlog, hbusy, hdone⟩
  · have haccept := step_cmd_idle hw hb hi
    obtain ⟨u, hu, e⟩ :=
      complete_shape (State.accept { s with inputs := .host (.rd (busAddr s.cfg 0x301)) :: rest } v)
    have hturn := (step_engine_busy
      (s := State.accept { s with inputs := .engine :: .host (.rd (busAddr s.cfg 0x301)) :: rest } v) hw rfl rfl).trans hu
    have hcfg : u.cfg = s.cfg := by rw [e]; rfl
    have hinputs : u.inputs = .host (.rd (busAddr u.cfg 0x301)) :: rest := by rw [e]; rfl
    have hreadLog : u.readLog = s.readLog := by rw [e]; rfl
    obtain ⟨ubusy, udone, -, -⟩ := complete_flags hu
    obtain ⟨t, x, hread, hlog, hbusy, hdone⟩ := step_rd_status (hcfg ▸ hw) hinputs
    exact ⟨t, x, (run_succ haccept).trans ((run_succ hturn).trans (run_one hread)), hreadLog ▸ hlog,
      hbusy.trans ubusy, hdone.trans udone⟩

/-- Settles O43: the step is the reset event, which keeps the configuration, the pending events and the host's log. -/
theorem resetEventAbandonsAndResets : Obligations.ResetEventAbandonsAndResets := fun s rest hw hi =>
  ⟨_, step_reset hw hi, atResetValues_resetEvent _, rfl, rfl, rfl, byteAt_resetEvent { s with inputs := rest }⟩

/-- Settles O16: `CMD` is in no write set, so its read is exact in every state, and its stored byte is 0. -/
theorem cmdReadsZero : Obligations.CmdReadsZero := by
  intro s rest hw hi
  obtain ⟨hcmd, -, -⟩ := inWriteSet_false s.op
  rw [step_rd hw hi, locate_of_toNat (r := .cmd) rfl]
  exact hostRead_outside (s := { s with inputs := rest }) nofun hcmd

end Sys2Proof.Proofs

end
